-- ==== Sys2Proof/Word.lean ====
section
/-! DEFINITION. The word types of CORE: bytes, 16-bit words, the fields of an instruction word, register numbers
and key vectors (00_scope.md R5, R7, R8, R10). Every value is unsigned. -/

namespace Sys2Proof

/-- A byte of memory or a general register (10_state.md R20, R30). -/
abbrev Byte := BitVec 8

/-- A 16-bit value: the program counter, the index register, a return address, an instruction word. -/
abbrev Word := BitVec 16

/-- One hexadecimal digit of an instruction word (30_encoding.md R71). -/
abbrev Nibble := BitVec 4

/-- The 12-bit address field nnn (30_encoding.md R71). -/
abbrev Imm12 := BitVec 12

/-- The number of a general register, 0 to 15; every value is valid (30_encoding.md R72). -/
abbrev Reg := Fin 16

/-- A vector of the 16 key flags, bit k for key k, 1 for pressed (10_state.md R27, R28). -/
abbrev Keys := BitVec 16

end Sys2Proof
end

