-- ==== Sys2Proof/Config.lean ====
section
/-! DEFINITION. What an implementation fixes (the switches of 00_scope.md R6) and the free values the spec leaves
to the outside. The font and its base stand in Machine/Font.lean, KEY_WAIT_MODEL is (a) (44_timer_key.md R200). -/

namespace Sys2Proof.Config

/-- STRICT_OPCODES: unrecognised words raise IllegalOpcode. False for this hardware (00_scope.md R6,
30_encoding.md R81); notes/assumptions/10.md. -/
def strictOpcodes : Bool := false

/-- DECODE_FULL_PATTERN: the ignored digits of 00E0, 00EE, 5xy0, 9xy0 must be 0. False for this hardware
(00_scope.md R6, 30_encoding.md R80); notes/assumptions/11.md. -/
def decodeFullPattern : Bool := false

/-- The key vector of the n-th freely drawn input (10_state.md R27). A free value: nothing constrains it;
notes/assumptions/1.md. -/
opaque freeKeys : Nat → Keys

/-- The random byte of the n-th freely drawn input (41_alu.md R132). A free value: nothing constrains it;
notes/assumptions/1.md. -/
opaque freeRnd : Nat → Byte

/-- How many tick events the host raises before the step of the n-th freely drawn input (10_state.md R37).
A free value: nothing constrains it; notes/assumptions/2.md. -/
opaque freeTicks : Nat → Nat

end Sys2Proof.Config
end

