-- ==== Sys2Proof/Syntax.lean ====
section
/-! DEFINITION. The instructions: one constructor per row of spec/opcode_table.json, with the operand fields
already extracted (30_encoding.md R79, R81, R84). A digit that the dispatch key does not examine (30_encoding.md R80)
is kept as the operand `ign`, so that the fetched word can be rebuilt from the instruction
(a fault records it, 60_exceptions.md R212). DESIGN CHOICE, safe: notes/assumptions/8.md. -/

namespace Sys2Proof

inductive Instr where
  /-- 00E0: clear the display (43_display.md R171); `ign` is the ignored digit, bits 11:8. -/
  | cls (ign : Nibble)
  /-- 00EE: return from subroutine (40_control.md R102); `ign` is the ignored digit, bits 11:8. -/
  | ret (ign : Nibble)
  /-- 0nnn: no operation (40_control.md R101). -/
  | sys (nnn : Imm12)
  /-- 1nnn: jump (40_control.md R103). -/
  | jp (nnn : Imm12)
  /-- 2nnn: call subroutine (40_control.md R104). -/
  | call (nnn : Imm12)
  /-- 3xkk: skip if register equals immediate (40_control.md R105). -/
  | seImm (x : Reg) (kk : Byte)
  /-- 4xkk: skip if register differs from immediate (40_control.md R106). -/
  | sneImm (x : Reg) (kk : Byte)
  /-- 5xy0: skip if registers equal (40_control.md R107); `ign` is the ignored digit, bits 3:0. -/
  | seReg (x y : Reg) (ign : Nibble)
  /-- 6xkk: load immediate (41_alu.md R121). -/
  | ldImm (x : Reg) (kk : Byte)
  /-- 7xkk: add immediate, no flag (41_alu.md R122). -/
  | addImm (x : Reg) (kk : Byte)
  /-- 8xy0: copy register (41_alu.md R123). -/
  | ldReg (x y : Reg)
  /-- 8xy1: bitwise OR (41_alu.md R124). -/
  | orReg (x y : Reg)
  /-- 8xy2: bitwise AND (41_alu.md R125). -/
  | andReg (x y : Reg)
  /-- 8xy3: bitwise exclusive OR (41_alu.md R126). -/
  | xorReg (x y : Reg)
  /-- 8xy4: add with carry flag (41_alu.md R127). -/
  | addReg (x y : Reg)
  /-- 8xy5: subtract, flag on strictly greater (41_alu.md R128). -/
  | subReg (x y : Reg)
  /-- 8xy6: shift right by one, source Vy (41_alu.md R129). -/
  | shr (x y : Reg)
  /-- 8xy7: reverse subtract, flag on strictly greater (41_alu.md R130). -/
  | subn (x y : Reg)
  /-- 8xyE: shift left by one, source Vy (41_alu.md R131). -/
  | shl (x y : Reg)
  /-- 9xy0: skip if registers differ (40_control.md R108); `ign` is the ignored digit, bits 3:0. -/
  | sneReg (x y : Reg) (ign : Nibble)
  /-- Annn: load index register (42_index_memory.md R151). -/
  | ldI (nnn : Imm12)
  /-- Bnnn: indexed jump (40_control.md R109). -/
  | jpV0 (nnn : Imm12)
  /-- Cxkk: masked random byte (41_alu.md R132). -/
  | rnd (x : Reg) (kk : Byte)
  /-- Dxyn: draw an n-row sprite (43_display.md R172). -/
  | drw (x y : Reg) (n : Nibble)
  /-- Ex9E: skip if the key named by Vx is pressed (44_timer_key.md R194). -/
  | skp (x : Reg)
  /-- ExA1: skip if the key named by Vx is not pressed (44_timer_key.md R195). -/
  | sknp (x : Reg)
  /-- Fx07: read the delay timer (44_timer_key.md R191). -/
  | ldVxDT (x : Reg)
  /-- Fx0A: wait for a key press (44_timer_key.md R200). -/
  | ldVxK (x : Reg)
  /-- Fx15: set the delay timer (44_timer_key.md R192). -/
  | ldDTVx (x : Reg)
  /-- Fx18: set the sound timer (44_timer_key.md R193). -/
  | ldSTVx (x : Reg)
  /-- Fx1E: add register to index (42_index_memory.md R152). -/
  | addI (x : Reg)
  /-- Fx29: address of a font glyph (42_index_memory.md R153). -/
  | ldF (x : Reg)
  /-- Fx33: store three decimal digits (42_index_memory.md R154). -/
  | ldB (x : Reg)
  /-- Fx55: store registers V0 to Vx (42_index_memory.md R155). -/
  | storeRegs (x : Reg)
  /-- Fx65: load registers V0 to Vx (42_index_memory.md R156). -/
  | loadRegs (x : Reg)
  /-- RSVD8: an unrecognised word of family 8; `n` is the selector (30_encoding.md R81). -/
  | rsvd8 (x y : Reg) (n : Nibble)
  /-- RSVDE: an unrecognised word of family E; `kk` is the selector (30_encoding.md R81). -/
  | rsvdE (x : Reg) (kk : Byte)
  /-- RSVDF: an unrecognised word of family F; `kk` is the selector (30_encoding.md R81). -/
  | rsvdF (x : Reg) (kk : Byte)
  deriving DecidableEq, Repr

end Sys2Proof
end

