-- ==== Sys2Proof/WellFormed.lean ====
section
/-! DEFINITION. Which terms of `Instr` stand for a word of the machine: the operands of 0nnn and of the three
reserved spaces must not be a selector that the dispatch key gives to another row (30_encoding.md R81, R84).
Every other field value is valid (30_encoding.md R72). -/

namespace Sys2Proof

/-- The low-byte selectors of family 0 that are instructions of their own: E0 and EE (30_encoding.md R84). -/
def family0Selectors : List Byte := [0xE0#8, 0xEE#8]

/-- The low-nibble selectors of family 8 (30_encoding.md R79). -/
def family8Selectors : List Nibble := [0x0#4, 0x1#4, 0x2#4, 0x3#4, 0x4#4, 0x5#4, 0x6#4, 0x7#4, 0xE#4]

/-- The low-byte selectors of family E (30_encoding.md R79). -/
def familyESelectors : List Byte := [0x9E#8, 0xA1#8]

/-- The low-byte selectors of family F (30_encoding.md R79). -/
def familyFSelectors : List Byte := [0x07#8, 0x0A#8, 0x15#8, 0x18#8, 0x1E#8, 0x29#8, 0x33#8, 0x55#8, 0x65#8]

/-- The instruction is the reading of some word. -/
def Instr.wf : Instr → Bool
  | .sys nnn => !family0Selectors.contains (nnn.extractLsb' 0 8)
  | .rsvd8 _ _ n => !family8Selectors.contains n
  | .rsvdE _ kk => !familyESelectors.contains kk
  | .rsvdF _ kk => !familyFSelectors.contains kk
  | .cls _ | .ret _ | .jp _ | .call _ | .seImm _ _ | .sneImm _ _ | .seReg _ _ _ | .ldImm _ _ | .addImm _ _
  | .ldReg _ _ | .orReg _ _ | .andReg _ _ | .xorReg _ _ | .addReg _ _ | .subReg _ _ | .shr _ _ | .subn _ _
  | .shl _ _ | .sneReg _ _ _ | .ldI _ | .jpV0 _ | .rnd _ _ | .drw _ _ _ | .skp _ | .sknp _ | .ldVxDT _
  | .ldVxK _ | .ldDTVx _ | .ldSTVx _ | .addI _ | .ldF _ | .ldB _ | .storeRegs _ | .loadRegs _ => true

end Sys2Proof
end

