-- ==== Sys2Proof/Decode.lean ====
section
/-! DEFINITION. The decoder, total on words and on bytes, and the encoder. Field extraction is 30_encoding.md R71,
the dispatch key R78, the opcode map R79, the ignored digits R80, the unrecognised words R81, the priority R84. -/

namespace Sys2Proof

/-- A register field read as a register number. -/
def toReg (d : Nibble) : Reg := d.toFin

/-- A register number as the digit that encodes it. -/
def ofReg (x : Reg) : Nibble := BitVec.ofFin x

/-- The six fields of a word (30_encoding.md R71). -/
structure Fields where
  op  : Nibble
  x   : Nibble
  y   : Nibble
  n   : Nibble
  kk  : Byte
  nnn : Imm12
  deriving DecidableEq, Repr

/-- Field extraction: op bits 15:12, x bits 11:8, y bits 7:4, n bits 3:0, kk bits 7:0, nnn bits 11:0
(30_encoding.md R71). -/
def fieldsOf (w : Word) : Fields where
  op  := w.extractLsb' 12 4
  x   := w.extractLsb' 8 4
  y   := w.extractLsb' 4 4
  n   := w.extractLsb' 0 4
  kk  := w.extractLsb' 0 8
  nnn := w.extractLsb' 0 12

/-- Family 0, selected by the low byte (30_encoding.md R78, R84). -/
def decodeFamily0 (f : Fields) : Instr :=
  if f.kk = 0xE0#8 then .cls f.x
  else if f.kk = 0xEE#8 then .ret f.x
  else .sys f.nnn

/-- Family 8, selected by the low nibble (30_encoding.md R78). -/
def decodeFamily8 (f : Fields) : Instr :=
  let x := toReg f.x
  let y := toReg f.y
  if f.n = 0x0#4 then .ldReg x y
  else if f.n = 0x1#4 then .orReg x y
  else if f.n = 0x2#4 then .andReg x y
  else if f.n = 0x3#4 then .xorReg x y
  else if f.n = 0x4#4 then .addReg x y
  else if f.n = 0x5#4 then .subReg x y
  else if f.n = 0x6#4 then .shr x y
  else if f.n = 0x7#4 then .subn x y
  else if f.n = 0xE#4 then .shl x y
  else .rsvd8 x y f.n

/-- Family E, selected by the low byte (30_encoding.md R78). -/
def decodeFamilyE (f : Fields) : Instr :=
  let x := toReg f.x
  if f.kk = 0x9E#8 then .skp x
  else if f.kk = 0xA1#8 then .sknp x
  else .rsvdE x f.kk

/-- Family F, selected by the low byte (30_encoding.md R78). -/
def decodeFamilyF (f : Fields) : Instr :=
  let x := toReg f.x
  if f.kk = 0x07#8 then .ldVxDT x
  else if f.kk = 0x0A#8 then .ldVxK x
  else if f.kk = 0x15#8 then .ldDTVx x
  else if f.kk = 0x18#8 then .ldSTVx x
  else if f.kk = 0x1E#8 then .addI x
  else if f.kk = 0x29#8 then .ldF x
  else if f.kk = 0x33#8 then .ldB x
  else if f.kk = 0x55#8 then .storeRegs x
  else if f.kk = 0x65#8 then .loadRegs x
  else .rsvdF x f.kk

/-- Dispatch on the family, the high nibble (30_encoding.md R78, R79). -/
def decodeFields (f : Fields) : Instr :=
  match f.op.toNat with
  | 0x0 => decodeFamily0 f
  | 0x1 => .jp f.nnn
  | 0x2 => .call f.nnn
  | 0x3 => .seImm (toReg f.x) f.kk
  | 0x4 => .sneImm (toReg f.x) f.kk
  | 0x5 => .seReg (toReg f.x) (toReg f.y) f.n
  | 0x6 => .ldImm (toReg f.x) f.kk
  | 0x7 => .addImm (toReg f.x) f.kk
  | 0x8 => decodeFamily8 f
  | 0x9 => .sneReg (toReg f.x) (toReg f.y) f.n
  | 0xA => .ldI f.nnn
  | 0xB => .jpV0 f.nnn
  | 0xC => .rnd (toReg f.x) f.kk
  | 0xD => .drw (toReg f.x) (toReg f.y) f.n
  | 0xE => decodeFamilyE f
  | _   => decodeFamilyF f

/-- The instruction a word selects; total (30_encoding.md R73, R84). -/
def decodeWord (w : Word) : Instr := decodeFields (fieldsOf w)

/-- Big-endian combination of two consecutive bytes (20_memory.md R54). -/
def wordOfBytes (hi lo : Byte) : Word := hi ++ lo

/-- The two bytes of a word, the high byte first (20_memory.md R54). -/
def bytesOfWord (w : Word) : List Byte := [w.extractLsb' 8 8, w.extractLsb' 0 8]

/-- Why a byte sequence gives no instruction: every 16-bit word decodes, so only a sequence of fewer than two
bytes is rejected (30_encoding.md R70, R73). -/
inductive DecodeError where
  /-- Fewer than the two bytes of one instruction word. -/
  | truncated (available : Nat)
  deriving DecidableEq, Repr

/-- Decode one instruction from the front of a byte sequence. -/
def decode : List Byte → Except DecodeError (Instr × List Byte)
  | hi :: lo :: rest => .ok (decodeWord (wordOfBytes hi lo), rest)
  | bs => .error (.truncated bs.length)

/-- Format NNN (30_encoding.md R71). -/
def wordNNN (op : Nibble) (nnn : Imm12) : Word := op ++ nnn

/-- Formats XKK and X (30_encoding.md R71). -/
def wordXKK (op x : Nibble) (kk : Byte) : Word := op ++ x ++ kk

/-- Format XYN (30_encoding.md R71). -/
def wordXYN (op x y n : Nibble) : Word := op ++ x ++ y ++ n

/-- The word of a well-formed instruction (30_encoding.md R79, R81). -/
def encode : Instr → Word
  | .cls ign         => wordXKK 0x0 ign 0xE0
  | .ret ign         => wordXKK 0x0 ign 0xEE
  | .sys nnn         => wordNNN 0x0 nnn
  | .jp nnn          => wordNNN 0x1 nnn
  | .call nnn        => wordNNN 0x2 nnn
  | .seImm x kk      => wordXKK 0x3 (ofReg x) kk
  | .sneImm x kk     => wordXKK 0x4 (ofReg x) kk
  | .seReg x y ign   => wordXYN 0x5 (ofReg x) (ofReg y) ign
  | .ldImm x kk      => wordXKK 0x6 (ofReg x) kk
  | .addImm x kk     => wordXKK 0x7 (ofReg x) kk
  | .ldReg x y       => wordXYN 0x8 (ofReg x) (ofReg y) 0x0
  | .orReg x y       => wordXYN 0x8 (ofReg x) (ofReg y) 0x1
  | .andReg x y      => wordXYN 0x8 (ofReg x) (ofReg y) 0x2
  | .xorReg x y      => wordXYN 0x8 (ofReg x) (ofReg y) 0x3
  | .addReg x y      => wordXYN 0x8 (ofReg x) (ofReg y) 0x4
  | .subReg x y      => wordXYN 0x8 (ofReg x) (ofReg y) 0x5
  | .shr x y         => wordXYN 0x8 (ofReg x) (ofReg y) 0x6
  | .subn x y        => wordXYN 0x8 (ofReg x) (ofReg y) 0x7
  | .shl x y         => wordXYN 0x8 (ofReg x) (ofReg y) 0xE
  | .sneReg x y ign  => wordXYN 0x9 (ofReg x) (ofReg y) ign
  | .ldI nnn         => wordNNN 0xA nnn
  | .jpV0 nnn        => wordNNN 0xB nnn
  | .rnd x kk        => wordXKK 0xC (ofReg x) kk
  | .drw x y n       => wordXYN 0xD (ofReg x) (ofReg y) n
  | .skp x           => wordXKK 0xE (ofReg x) 0x9E
  | .sknp x          => wordXKK 0xE (ofReg x) 0xA1
  | .ldVxDT x        => wordXKK 0xF (ofReg x) 0x07
  | .ldVxK x         => wordXKK 0xF (ofReg x) 0x0A
  | .ldDTVx x        => wordXKK 0xF (ofReg x) 0x15
  | .ldSTVx x        => wordXKK 0xF (ofReg x) 0x18
  | .addI x          => wordXKK 0xF (ofReg x) 0x1E
  | .ldF x           => wordXKK 0xF (ofReg x) 0x29
  | .ldB x           => wordXKK 0xF (ofReg x) 0x33
  | .storeRegs x     => wordXKK 0xF (ofReg x) 0x55
  | .loadRegs x      => wordXKK 0xF (ofReg x) 0x65
  | .rsvd8 x y n     => wordXYN 0x8 (ofReg x) (ofReg y) n
  | .rsvdE x kk      => wordXKK 0xE (ofReg x) kk
  | .rsvdF x kk      => wordXKK 0xF (ofReg x) kk

/-- The bytes of a well-formed instruction, as the ROM holds them (20_memory.md R54). -/
def encodeBytes (i : Instr) : List Byte := bytesOfWord (encode i)

/-- The word that the opcode table numbers as `w` on `nbits` bits; the bits above are 0. -/
def tableWord (nbits w : Nat) : Word := BitVec.ofNat 16 (w % 2 ^ nbits)

/-- The decoder's reading of a word of the opcode table, laid out as the hardware stores it. -/
def decodeTableWord (nbits w : Nat) : Option Instr :=
  match decode (bytesOfWord (tableWord nbits w)) with
  | .ok (i, _) => some i
  | .error _ => none

end Sys2Proof
end

