-- ==== Sys2Proof/Machine/Font.lean ====
section
/-! DEFINITION. The parameters FONT_BASE and FONT (00_scope.md R6, 20_memory.md R51, R56). -/

namespace Sys2Proof.Machine

/-- FONT_BASE (00_scope.md R6, 20_memory.md R51). DESIGN CHOICE of the spec (92_eei_decisions.md D13), unsafe:
notes/assumptions/22.md. -/
def fontBase : Nat := 0x50

/-- Glyphs 0 to 3 (20_memory.md R56). Glyph 0 is the source's; the others PRESUMED, unsafe:
notes/assumptions/5.md. -/
def font0to3 : List Byte :=
  [0xF0, 0x90, 0x90, 0x90, 0xF0] ++ [0x20, 0x60, 0x20, 0x20, 0x70] ++
  [0xF0, 0x10, 0xF0, 0x80, 0xF0] ++ [0xF0, 0x10, 0xF0, 0x10, 0xF0]

/-- Glyphs 4 to 7 (20_memory.md R56). PRESUMED, unsafe: notes/assumptions/5.md. -/
def font4to7 : List Byte :=
  [0x90, 0x90, 0xF0, 0x10, 0x10] ++ [0xF0, 0x80, 0xF0, 0x10, 0xF0] ++
  [0xF0, 0x80, 0xF0, 0x90, 0xF0] ++ [0xF0, 0x10, 0x20, 0x40, 0x40]

/-- Glyphs 8 to B (20_memory.md R56). PRESUMED, unsafe: notes/assumptions/5.md. -/
def font8toB : List Byte :=
  [0xF0, 0x90, 0xF0, 0x90, 0xF0] ++ [0xF0, 0x90, 0xF0, 0x10, 0xF0] ++
  [0xF0, 0x90, 0xF0, 0x90, 0x90] ++ [0xE0, 0x90, 0xE0, 0x90, 0xE0]

/-- Glyphs C to F (20_memory.md R56). PRESUMED, unsafe: notes/assumptions/5.md. -/
def fontCtoF : List Byte :=
  [0xF0, 0x80, 0x80, 0x80, 0xF0] ++ [0xE0, 0x90, 0x90, 0x90, 0xE0] ++
  [0xF0, 0x80, 0xF0, 0x80, 0xF0] ++ [0xF0, 0x80, 0xF0, 0x80, 0x80]

/-- FONT, the 80 bytes of the table, glyph d at bytes 5d to 5d+4 (20_memory.md R56). -/
def font : List Byte := font0to3 ++ font4to7 ++ font8toB ++ fontCtoF

end Sys2Proof.Machine
end

