-- ==== Sys2Proof/Machine/State.lean ====
section
/-! DEFINITION. The state of CORE as plain data (10_state.md R20 to R34), the model's own fields for the inputs and
the output pulse (10_state.md R27, R35 to R38), the outcome types, and the state after reset (10_state.md R39). -/

namespace Sys2Proof.Machine

/-- Memory: the (address, byte) pairs that differ from the reset image, addresses strictly rising. An address that
is not listed reads as `unlistedByte` (Machine/Ops.lean), the reset contents of an empty ROM (10_state.md R39). -/
abbrev Memory := List Host.Cell

/-- The display: 32 rows of 64 one-bit pixels; bit c of row r is the pixel fb[r][c], 1 for set
(10_state.md R29). DESIGN CHOICE, safe: notes/assumptions/16.md. -/
abbrev Display := Vector (BitVec 64) 32

/-- The engine mode (10_state.md R33). -/
inductive Mode where
  | running
  | awaitingKey
  deriving DecidableEq, Repr

/-- The fault causes (60_exceptions.md R211). -/
inductive Cause where
  /-- A memory address above 4095 would be accessed (R214). -/
  | outOfBounds
  /-- 2nnn with a full stack (R215). -/
  | stackOverflow
  /-- 00EE with an empty stack (R216). -/
  | stackUnderflow
  /-- reset with a ROM of more than 3584 bytes (R217). -/
  | romTooLarge
  /-- An unrecognised word in strict mode; never raised with STRICT_OPCODES false (R219). -/
  | illegalOpcode
  /-- Ex9E or ExA1 with a key index above 15 (R218). -/
  | keyIndexOutOfRange
  deriving DecidableEq, Repr

/-- The fault record (cause, addr, fpc, finstr) (10_state.md R34). `addr` is the offending address or value, a number
of no fixed width in the spec; notes/assumptions/17.md. -/
structure FaultRecord where
  cause  : Cause
  addr   : Nat
  fpc    : Word
  finstr : Word
  deriving DecidableEq, Repr

/-- What the host drives for one step: the key vector and the random byte that the step samples (10_state.md R27,
41_alu.md R132), and how many tick events it raises before that step (10_state.md R37). -/
structure Input where
  keys  : Keys
  rnd   : Byte
  ticks : Nat
  deriving DecidableEq, Repr

structure State where
  /-- V0 to VF (10_state.md R20, R21). -/
  V : Vector Byte 16
  /-- The index register (10_state.md R22). -/
  I : Word
  /-- The program counter (10_state.md R23). -/
  pc : Word
  /-- The number of occupied stack entries, 0 to 16 (10_state.md R24). -/
  sp : Fin 17
  /-- The return addresses (10_state.md R24). -/
  stack : Vector Word 16
  /-- The delay timer (10_state.md R25). -/
  DT : Byte
  /-- The sound timer (10_state.md R26). -/
  ST : Byte
  /-- The display buffer (10_state.md R29). -/
  fb : Display
  /-- The memory (10_state.md R30). -/
  mem : Memory
  /-- The engine mode (10_state.md R33). -/
  mode : Mode
  /-- The register a key wait will write (10_state.md R33). -/
  waitReg : Reg
  /-- The previous-key latch (10_state.md R28). -/
  keyPrev : Keys
  /-- The fault latch (10_state.md R34). -/
  fault : Option FaultRecord
  /-- The output pulse display_updated as it stands after the last event (10_state.md R38); the model's own field,
  notes/assumptions/9.md. -/
  displayUpdated : Bool
  /-- The input lines as driven for the coming step; the model's own field, notes/assumptions/1.md. -/
  input : Input
  /-- The inputs the host will drive after this one; the model's own field, notes/assumptions/1.md. -/
  script : List Input
  /-- How many free inputs have been drawn; the model's own field, notes/assumptions/1.md. -/
  draws : Nat
  deriving DecidableEq, Repr

/-- Why the machine stops for good: never. A fault of the spec is a latch and the machine goes on taking tick and
reset events (60_exceptions.md R213), so every fault is a next state with `State.fault` written; no constructor is
needed and nothing raises one. notes/assumptions/4.md. -/
inductive Fault
  deriving DecidableEq, Repr

/-- Why an instruction has no meaning. -/
inductive Refusal where
  /-- Raised by an arm of `exec` whose instruction has no meaning yet; safe. No arm raises it. -/
  | notModelled (mnemonic : String)
  deriving DecidableEq, Repr

/-- The three outcomes of a step of this machine. -/
abbrev Result := Host.Outcome State Fault Refusal

/-- The state after `reset` with the empty ROM (10_state.md R39, 70_reset_and_hazards.md R251, R252). The values of
`displayUpdated`, `input`, `script`, `draws` are the model's: DESIGN CHOICE, notes/assumptions/3.md and 9.md. -/
def State.reset : State where
  V := Vector.replicate 16 0
  I := 0
  pc := 0x200
  sp := 0
  stack := Vector.replicate 16 0
  DT := 0
  ST := 0
  fb := Vector.replicate 32 0
  mem := []
  mode := .running
  waitReg := 0
  keyPrev := 0
  fault := none
  displayUpdated := false
  input := { keys := 0, rnd := 0, ticks := 0 }
  script := []
  draws := 0

end Sys2Proof.Machine
end

