-- ==== Sys2Proof/Machine/Ops.lean ====
section
/-! DEFINITION. The named operations over registers, stack, memory, display and timers; raising a fault, in one
place; the input lines; the outputs. There is no return from a fault: only `reset` clears the latch
(60_exceptions.md R223), and the reset sequence stands at the end of this file. -/

namespace Sys2Proof.Machine

/-! ## Registers -/

/-- Read general register x (10_state.md R20). -/
def State.reg (s : State) (x : Reg) : Byte := s.V[x.val]

/-- Write general register x (10_state.md R20). -/
def State.setReg (s : State) (x : Reg) (v : Byte) : State := { s with V := s.V.set x.val v }

/-- VF, the register that flags are written to (10_state.md R21). -/
def regVF : Reg := 15

/-- The advance of the program counter past the instruction (30_encoding.md R76). A meaning runs on the state whose
pc is the instruction's own address A and makes the advance itself: notes/assumptions/7.md. -/
def State.advancePc (s : State) : State := { s with pc := s.pc + 2 }

/-- A skip: the advance, and 2 more if the condition holds (40_control.md R100). -/
def State.skipIf (c : Bool) (s : State) : State :=
  if c then { s.advancePc with pc := s.advancePc.pc + 2 } else s.advancePc

/-- A jump: the target overwrites the advanced pc (30_encoding.md R76). -/
def State.jumpTo (s : State) (target : Word) : State := { s with pc := target }

/-! ## The fault latch -/

/-- The numeric cause code (60_exceptions.md R211). -/
def Cause.code : Cause → Nat
  | .outOfBounds => 1
  | .stackOverflow => 2
  | .stackUnderflow => 3
  | .romTooLarge => 4
  | .illegalOpcode => 5
  | .keyIndexOutOfRange => 6

/-- Raise a fault: nothing changes but the latch, pc stays at the faulting instruction (60_exceptions.md R212, R222).
`w` is the fetched word, 0 when the fetch itself faulted. -/
def State.raise (s : State) (cause : Cause) (addr : Nat) (w : Word) : State :=
  { s with fault := some { cause := cause, addr := addr, fpc := s.pc, finstr := w } }

/-! ## The stack -/

/-- Push a return address: none when 16 entries are occupied (10_state.md R24, 60_exceptions.md R215). -/
def State.push? (s : State) (a : Word) : Option State :=
  if h : s.sp.val < 16 then
    some { s with stack := s.stack.set s.sp.val a h, sp := ⟨s.sp.val + 1, by omega⟩ }
  else none

/-- Pop a return address: none when the stack is empty. The entry keeps its value (10_state.md R24,
60_exceptions.md R216). -/
def State.pop? (s : State) : Option (Word × State) :=
  if h : 0 < s.sp.val then
    some (s.stack[s.sp.val - 1], { s with sp := ⟨s.sp.val - 1, by omega⟩ })
  else none

/-! ## Memory -/

/-- What an address reads as that no store and no ROM byte has changed: the reset contents, the font in its 80
bytes and 0 elsewhere (10_state.md R39). -/
def unlistedByte (a : Nat) : Byte := if a < fontBase then 0 else font.getD (a - fontBase) 0

/-- The raw byte mem[a], without a check (00_scope.md R9). -/
def Memory.read : Memory → Nat → Byte
  | [], a => unlistedByte a
  | (k, b) :: m, a => if k = a then b else Memory.read m a

/-- The entry for a byte: none if the address reads as that byte anyway. -/
def Memory.cell (a : Nat) (v : Byte) : Memory := if v = unlistedByte a then [] else [(a, v)]

/-- Store one byte, without a check, keeping the canonical form (00_scope.md R9). -/
def Memory.write : Memory → Nat → Byte → Memory
  | [], a, v => Memory.cell a v
  | (k, b) :: m, a, v =>
    if a < k then Memory.cell a v ++ (k, b) :: m
    else if a = k then Memory.cell a v ++ m
    else (k, b) :: Memory.write m a v

/-- Every listed address is at least `lo` and below 4096, they strictly rise, and no entry equals what its address
would read as unlisted. -/
def Memory.wfFrom : Nat → Memory → Bool
  | _, [] => true
  | lo, (a, b) :: m => decide (lo ≤ a) && decide (a < 4096) && decide (b ≠ unlistedByte a) && Memory.wfFrom (a + 1) m

/-- The canonical form of a memory; no byte outside 0 to 4095 exists (10_state.md R40). -/
def Memory.wf (m : Memory) : Bool := Memory.wfFrom 0 m

/-- The bounds check of an access to the `n` addresses from `addr` on: the lowest of them above 4095, if there is
one. Addresses are not wrapped (20_memory.md R52 to R54, R58, 60_exceptions.md R214). -/
def spanFault (addr n : Nat) : Option Nat := if n = 0 ∨ addr + n ≤ 4096 then none else some (max addr 4096)

/-- The bytes at `addr`, `addr + 1`, … in ascending order, without a check. -/
def Memory.readBytes (m : Memory) : Nat → Nat → List Byte
  | _, 0 => []
  | addr, n + 1 => m.read addr :: m.readBytes (addr + 1) n

/-- Store bytes at `addr`, `addr + 1`, … in ascending order, without a check (20_memory.md R57). -/
def Memory.writeBytes : Memory → Nat → List Byte → Memory
  | m, _, [] => m
  | m, addr, b :: bs => Memory.writeBytes (m.write addr b) (addr + 1) bs

/-- Checked read of `n` bytes: all of them, or the address to report (20_memory.md R52). -/
def Memory.readSpan (m : Memory) (addr n : Nat) : Except Nat (List Byte) :=
  match spanFault addr n with
  | some a => .error a
  | none => .ok (m.readBytes addr n)

/-- Checked write: every address is checked before any byte is written (20_memory.md R53). -/
def Memory.writeSpan (m : Memory) (addr : Nat) (bs : List Byte) : Except Nat Memory :=
  match spanFault addr bs.length with
  | some a => .error a
  | none => .ok (m.writeBytes addr bs)

/-- The instruction fetch MemRead(pc, 2): the big-endian word, or the address to report (20_memory.md R54,
30_encoding.md R74). -/
def State.fetchWord (s : State) : Except Nat Word :=
  match spanFault s.pc.toNat 2 with
  | some a => .error a
  | none => .ok (wordOfBytes (s.mem.read s.pc.toNat) (s.mem.read (s.pc.toNat + 1)))

/-! ## The display -/

/-- Row r of the display. -/
def Display.row (fb : Display) (r : Nat) : BitVec 64 := if h : r < 32 then fb[r] else 0

/-- The pixel fb[r][c] (10_state.md R29). -/
def Display.pixel (fb : Display) (r c : Nat) : Bool := (fb.row r).getLsbD c

/-- The display with every pixel 0 (43_display.md R171). -/
def Display.blank : Display := Vector.replicate 32 0

/-- One sprite byte placed with its leftmost pixel, bit 7, at column `x0`: bit c of the mask is the pixel drawn at
column c. Bits shifted past column 63 are lost, which is the clip at the right edge (43_display.md R172, R173). -/
def spriteMask (b : Byte) (x0 : Nat) : BitVec 64 := (b.reverse.setWidth 64) <<< x0

/-- XOR the sprite bytes into successive rows from row `r` on, and report whether a set sprite bit met a set pixel
(43_display.md R172, R174). -/
def Display.draw : Display → Nat → Nat → List Byte → Display × Bool
  | fb, _, _, [] => (fb, false)
  | fb, x0, r, b :: bs =>
    let old := fb.row r
    let mask := spriteMask b x0
    let rest := Display.draw (fb.setIfInBounds r (old ^^^ mask)) x0 (r + 1) bs
    (rest.1, (old &&& mask) != 0 || rest.2)

/-! ## Timers -/

/-- One timer under one tick: decremented while nonzero (44_timer_key.md R205). -/
def tickTimer (t : Byte) : Byte := if 0 < t.toNat then t - 1 else t

/-- The tick event (44_timer_key.md R205). It completes no display instruction, so the output pulse is 0
(10_state.md R38). -/
def State.tick (s : State) : State :=
  { s with DT := tickTimer s.DT, ST := tickTimer s.ST, displayUpdated := false }

/-- One timer under `n` ticks. -/
def countdown : Nat → Byte → Byte
  | 0, t => t
  | n + 1, t => countdown n (tickTimer t)

/-- `n` tick events in a row (equal to `n` times `State.tick`: runTicks_succ in Laws/Ops.lean). -/
def State.runTicks (n : Nat) (s : State) : State :=
  { s with DT := countdown n s.DT, ST := countdown n s.ST, displayUpdated := s.displayUpdated && n == 0 }

/-! ## Input lines and outputs -/

/-- The host drives the lines for the next step: the next input of the script, or, when the script is used up, free
values (10_state.md R27, R37, 41_alu.md R132). notes/assumptions/1.md and 2.md. -/
def State.nextInput (s : State) : State :=
  match s.script with
  | i :: rest => { s with input := i, script := rest }
  | [] =>
    { s with
      input := { keys := Config.freeKeys s.draws, rnd := Config.freeRnd s.draws, ticks := Config.freeTicks s.draws }
      draws := s.draws + 1 }

/-- The output sound_on (10_state.md R38). -/
def State.soundOn (s : State) : Bool := s.ST != 0

/-- The output awaiting_key (10_state.md R38). -/
def State.awaitingKeyOut (s : State) : Bool := s.mode == .awaitingKey

/-- A step completed 00E0 or Dxyn: the pulse display_updated is 1 (10_state.md R38, 43_display.md R170). -/
def State.pulseDisplay (s : State) : State := { s with displayUpdated := true }

/-! ## The key wait -/

/-- Keys down in this sample and up in the previous one (44_timer_key.md R201). -/
def freshKeys (now prev : Keys) : Keys := now &&& ~~~prev

/-- The lowest-numbered key of a vector (44_timer_key.md R201). -/
def lowestKey (k : Keys) : Option Reg := (List.finRange 16).find? fun j => k.getLsbD j.val

/-- The key-wait poll of a step in mode AwaitingKey (44_timer_key.md R201). notes/assumptions/12.md. -/
def State.pollKeys (s : State) : State :=
  match lowestKey (freshKeys s.input.keys s.keyPrev) with
  | some k => { s.setReg s.waitReg (BitVec.ofNat 8 k.val) with mode := .running, keyPrev := s.input.keys }
  | none => { s with keyPrev := s.input.keys }

/-! ## The reset event -/

/-- Memory of all zeros: in canonical form, a zero listed for every byte of the font (70_reset_and_hazards.md R251
step 1). -/
def Memory.zeroed : Memory :=
  (List.range font.length).flatMap fun k => Memory.cell (fontBase + k) 0

/-- Step 1 and 2 of the reset sequence: every piece of state zero, pc at 0x200. The input lines, the script and the
draws are the host's and are not reset (10_state.md R39). -/
def State.cleared (s : State) : State :=
  { State.reset with mem := Memory.zeroed, input := s.input, script := s.script, draws := s.draws }

/-- The reset sequence for a font base, a font and a ROM (70_reset_and_hazards.md R251, R253, R254). The latched
record names 0x200, the pc of step 2, and word 0. -/
def State.resetSequence (base : Nat) (glyphs rom : List Byte) (s : State) : State :=
  let z := s.cleared
  if base + 80 > 4096 then z.raise .outOfBounds 4096 0
  else
    let f := { z with mem := z.mem.writeBytes base glyphs }
    if rom.length > 3584 then f.raise .romTooLarge rom.length 0
    else { f with mem := f.mem.writeBytes 0x200 rom }

/-- The reset(ROM) event of this hardware (70_reset_and_hazards.md R250, R251). -/
def State.resetWith (rom : List Byte) (s : State) : State := s.resetSequence fontBase font rom

end Sys2Proof.Machine
end

