-- ==== Sys2Proof/Machine/Flags.lean ====
section
/-! DEFINITION. The flag computations, over exact integers, and the order of the two register writes of a
flag-writing instruction (10_state.md R21, 41_alu.md R120, R133). -/

namespace Sys2Proof.Machine

/-- A flag as the byte that VF holds: 0 or 1 (10_state.md R21). -/
def flagByte (f : Bool) : Byte := if f then 1 else 0

/-- The sum reduced modulo 256 (41_alu.md R122, R127). -/
def sumByte (a b : Byte) : Byte := BitVec.ofNat 8 (a.toNat + b.toNat)

/-- Carry out of bit 7: the exact sum is above 255 (41_alu.md R127). -/
def carryFlag (a b : Byte) : Bool := a.toNat + b.toNat > 255

/-- The difference a - b reduced modulo 256 (41_alu.md R128, R130). -/
def diffByte (a b : Byte) : Byte := BitVec.ofInt 8 ((a.toNat : Int) - (b.toNat : Int))

/-- The first operand is strictly greater, no borrow and not equal (41_alu.md R128, R130). -/
def greaterFlag (a b : Byte) : Bool := a.toNat > b.toNat

/-- Logical shift right by one (41_alu.md R129). -/
def shrByte (b : Byte) : Byte := b >>> 1

/-- Bit 0, the bit a right shift loses (41_alu.md R129). -/
def lowBit (b : Byte) : Bool := b.getLsbD 0

/-- Shift left by one, modulo 256 (41_alu.md R131). -/
def shlByte (b : Byte) : Byte := b <<< 1

/-- Bit 7, the bit a left shift loses (41_alu.md R131). -/
def highBit (b : Byte) : Bool := b.getLsbD 7

/-- Write the result to Vx, then the flag to VF, last (10_state.md R21). -/
def State.writeFlagged (s : State) (x : Reg) (result : Byte) (flag : Bool) : State :=
  (s.setReg x result).setReg regVF (flagByte flag)

end Sys2Proof.Machine
end

