-- ==== Sys2Proof/Machine/Operands.lean ====
section
/-! DEFINITION. Operand forms: immediates, the one data addressing mode, coordinates, the glyph address, decimal
digits, key indexes, and the ignored digit (30_encoding.md R72, R80, 42_index_memory.md R158). -/

namespace Sys2Proof.Machine

/-- zext_16(nnn) (00_scope.md R8, 30_encoding.md R72). -/
def zext16 (nnn : Imm12) : Word := nnn.setWidth 16

/-- The base of the data addressing mode, I as an unbounded number: I + k is not wrapped (20_memory.md R58). -/
def State.base (s : State) : Nat := s.I.toNat

/-- The target of Bnnn, zext_16(nnn) + zext_16(V0) (40_control.md R109). -/
def indexedTarget (nnn : Imm12) (v0 : Byte) : Word := zext16 nnn + v0.setWidth 16

/-- FONT_BASE + 5 * Vx (42_index_memory.md R153). -/
def glyphAddress (v : Byte) : Word := BitVec.ofNat 16 (fontBase + 5 * v.toNat)

/-- Hundreds, tens, units of a byte (42_index_memory.md R154). -/
def decimalDigits (v : Byte) : List Byte :=
  [BitVec.ofNat 8 (v.toNat / 100), BitVec.ofNat 8 (v.toNat / 10 % 10), BitVec.ofNat 8 (v.toNat % 10)]

/-- The registers V0 to Vx in ascending order (42_index_memory.md R155). -/
def State.firstRegs (s : State) (x : Reg) : List Byte := s.V.toList.take (x.val + 1)

/-- Write bytes to registers i, i+1, … in ascending order (42_index_memory.md R156). -/
def loadFrom : Nat → List Byte → Vector Byte 16 → Vector Byte 16
  | _, [], v => v
  | i, b :: bs, v => loadFrom (i + 1) bs (v.setIfInBounds i b)

/-- The start column Vx mod 64 (43_display.md R172). -/
def startColumn (v : Byte) : Nat := v.toNat % 64

/-- The start row Vy mod 32 (43_display.md R172). -/
def startRow (v : Byte) : Nat := v.toNat % 32

/-- The rows that land on the screen, min(n, 32 - y0) (43_display.md R172, R176). -/
def visibleRows (n : Nibble) (y0 : Nat) : Nat := min n.toNat (32 - y0)

/-- The key input k of this step, k in 0 to 15 (10_state.md R27). -/
def State.keyDown (s : State) (k : Nat) : Bool := s.input.keys.getLsbD k

/-- Whether a word with this ignored digit is selected by its row: always, unless DECODE_FULL_PATTERN is on and the
digit is not 0 (30_encoding.md R80, 92_eei_decisions.md D2). notes/assumptions/11.md. -/
def rowSelected (full : Bool) (ign : Nibble) : Bool := !full || ign == 0

/-- An unrecognised word: a no-op that advances pc, or IllegalOpcode with the word as the recorded value when
STRICT_OPCODES is on (30_encoding.md R81, 60_exceptions.md R219). notes/assumptions/10.md. -/
def State.unrecognised (strict : Bool) (w : Word) (s : State) : State :=
  if strict then s.raise .illegalOpcode w.toNat w else s.advancePc

end Sys2Proof.Machine
end

