-- ==== Sys2Proof/Machine/Alu.lean ====
section
/-! DEFINITION. Register load, arithmetic, logic, shift and random instructions (41_alu.md R120 to R133). Operands are
read from the state before any write (10_state.md R21). -/

namespace Sys2Proof.Machine

/-- 6xkk: Vx ← kk (41_alu.md R121). -/
def execLdImm (x : Reg) (kk : Byte) (s : State) : Result := .next (s.setReg x kk).advancePc

/-- 7xkk: Vx ← (Vx + kk) mod 256, no flag (41_alu.md R122). -/
def execAddImm (x : Reg) (kk : Byte) (s : State) : Result := .next (s.setReg x (sumByte (s.reg x) kk)).advancePc

/-- 8xy0: Vx ← Vy (41_alu.md R123). -/
def execLdReg (x y : Reg) (s : State) : Result := .next (s.setReg x (s.reg y)).advancePc

/-- 8xy1: Vx ← Vx OR Vy, VF not modified (41_alu.md R124). -/
def execOrReg (x y : Reg) (s : State) : Result := .next (s.setReg x (s.reg x ||| s.reg y)).advancePc

/-- 8xy2: Vx ← Vx AND Vy, VF not modified (41_alu.md R125). -/
def execAndReg (x y : Reg) (s : State) : Result := .next (s.setReg x (s.reg x &&& s.reg y)).advancePc

/-- 8xy3: Vx ← Vx XOR Vy, VF not modified (41_alu.md R126). -/
def execXorReg (x y : Reg) (s : State) : Result := .next (s.setReg x (s.reg x ^^^ s.reg y)).advancePc

/-- 8xy4: add, VF = carry (41_alu.md R127). -/
def execAddReg (x y : Reg) (s : State) : Result :=
  .next (s.writeFlagged x (sumByte (s.reg x) (s.reg y)) (carryFlag (s.reg x) (s.reg y))).advancePc

/-- 8xy5: Vx - Vy, VF = (Vx > Vy) (41_alu.md R128). -/
def execSubReg (x y : Reg) (s : State) : Result :=
  .next (s.writeFlagged x (diffByte (s.reg x) (s.reg y)) (greaterFlag (s.reg x) (s.reg y))).advancePc

/-- 8xy6: Vx ← Vy >> 1, VF = bit 0 of Vy (41_alu.md R129). -/
def execShr (x y : Reg) (s : State) : Result :=
  .next (s.writeFlagged x (shrByte (s.reg y)) (lowBit (s.reg y))).advancePc

/-- 8xy7: Vy - Vx, VF = (Vy > Vx) (41_alu.md R130). -/
def execSubn (x y : Reg) (s : State) : Result :=
  .next (s.writeFlagged x (diffByte (s.reg y) (s.reg x)) (greaterFlag (s.reg y) (s.reg x))).advancePc

/-- 8xyE: Vx ← Vy << 1, VF = bit 7 of Vy (41_alu.md R131). -/
def execShl (x y : Reg) (s : State) : Result :=
  .next (s.writeFlagged x (shlByte (s.reg y)) (highBit (s.reg y))).advancePc

/-- Cxkk: Vx ← rnd_in AND kk (41_alu.md R132). -/
def execRnd (x : Reg) (kk : Byte) (s : State) : Result := .next (s.setReg x (s.input.rnd &&& kk)).advancePc

end Sys2Proof.Machine
end

