-- ==== Sys2Proof/Machine/Control.lean ====
section
/-! DEFINITION. Control transfer instructions (40_control.md R100 to R110). `s` is the state before the pc advance,
so `s.pc` is A, the address the instruction was fetched from. -/

namespace Sys2Proof.Machine

/-- 0nnn: no operation (40_control.md R101). -/
def execSys (_nnn : Imm12) (s : State) : Result := .next s.advancePc

/-- 00EE: pop pc; StackUnderflow when the stack is empty (40_control.md R102). -/
def execRet (ign : Nibble) (s : State) : Result :=
  if rowSelected Config.decodeFullPattern ign then
    match s.pop? with
    | some (a, t) => .next (t.jumpTo a)
    | none => .next (s.raise .stackUnderflow 0 (encode (.ret ign)))
  else .next s.advancePc

/-- 1nnn: jump (40_control.md R103). -/
def execJp (nnn : Imm12) (s : State) : Result := .next (s.jumpTo (zext16 nnn))

/-- 2nnn: push the advanced pc, jump; StackOverflow when the stack is full (40_control.md R104). -/
def execCall (nnn : Imm12) (s : State) : Result :=
  match s.push? s.advancePc.pc with
  | some t => .next (t.jumpTo (zext16 nnn))
  | none => .next (s.raise .stackOverflow 16 (encode (.call nnn)))

/-- 3xkk: skip if Vx = kk (40_control.md R105). -/
def execSeImm (x : Reg) (kk : Byte) (s : State) : Result := .next (s.skipIf (s.reg x == kk))

/-- 4xkk: skip if Vx differs from kk (40_control.md R106). -/
def execSneImm (x : Reg) (kk : Byte) (s : State) : Result := .next (s.skipIf (s.reg x != kk))

/-- 5xy0: skip if Vx = Vy (40_control.md R107). -/
def execSeReg (x y : Reg) (ign : Nibble) (s : State) : Result :=
  if rowSelected Config.decodeFullPattern ign then .next (s.skipIf (s.reg x == s.reg y))
  else .next (s.unrecognised Config.strictOpcodes (encode (.seReg x y ign)))

/-- 9xy0: skip if Vx differs from Vy (40_control.md R108). -/
def execSneReg (x y : Reg) (ign : Nibble) (s : State) : Result :=
  if rowSelected Config.decodeFullPattern ign then .next (s.skipIf (s.reg x != s.reg y))
  else .next (s.unrecognised Config.strictOpcodes (encode (.sneReg x y ign)))

/-- Bnnn: jump to nnn + V0, not wrapped (40_control.md R109). -/
def execJpV0 (nnn : Imm12) (s : State) : Result := .next (s.jumpTo (indexedTarget nnn (s.reg 0)))

end Sys2Proof.Machine
end

