-- ==== Sys2Proof/Machine/DisplayUnit.lean ====
section
/-! DEFINITION. Display instructions (43_display.md R170 to R177). -/

namespace Sys2Proof.Machine

/-- 00E0: clear every pixel (43_display.md R171); with DECODE_FULL_PATTERN on and a nonzero ignored digit, the no-op
0nnn (92_eei_decisions.md D2). -/
def execCls (ign : Nibble) (s : State) : Result :=
  if rowSelected Config.decodeFullPattern ign then .next { s.advancePc.pulseDisplay with fb := Display.blank }
  else .next s.advancePc

/-- Dxyn: XOR-draw the visible rows of the sprite at I, VF = collision, written after Vx and Vy are read; OutOfBounds
on the bytes of the visible rows only, before any change (43_display.md R172 to R176). -/
def execDrw (x y : Reg) (n : Nibble) (s : State) : Result :=
  let y0 := startRow (s.reg y)
  match s.mem.readSpan s.base (visibleRows n y0) with
  | .ok bs =>
    let d := s.fb.draw (startColumn (s.reg x)) y0 bs
    .next ({ s with fb := d.1 }.setReg regVF (flagByte d.2)).advancePc.pulseDisplay
  | .error a => .next (s.raise .outOfBounds a (encode (.drw x y n)))

end Sys2Proof.Machine
end

