-- ==== Sys2Proof/Machine/IndexMemory.lean ====
section
/-! DEFINITION. Index register and memory transfer instructions (42_index_memory.md R150 to R158). I is never changed
by a transfer (R157). -/

namespace Sys2Proof.Machine

/-- Annn: I ← nnn (42_index_memory.md R151). -/
def execLdI (nnn : Imm12) (s : State) : Result := .next { s.advancePc with I := zext16 nnn }

/-- Fx1E: I ← (I + Vx) mod 65536, VF not written (42_index_memory.md R152). -/
def execAddI (x : Reg) (s : State) : Result :=
  .next { s.advancePc with I := BitVec.ofNat 16 (s.I.toNat + (s.reg x).toNat) }

/-- Fx29: I ← FONT_BASE + 5 * Vx, the whole byte (42_index_memory.md R153). -/
def execLdF (x : Reg) (s : State) : Result := .next { s.advancePc with I := glyphAddress (s.reg x) }

/-- Store bytes at I, then advance; OutOfBounds before any write (42_index_memory.md R150). `w` is the word of the
instruction. -/
def State.storeAtI (s : State) (bs : List Byte) (w : Word) : State :=
  match s.mem.writeSpan s.base bs with
  | .ok m => { s.advancePc with mem := m }
  | .error a => s.raise .outOfBounds a w

/-- Fx33: store the three decimal digits of Vx at I (42_index_memory.md R154). -/
def execLdB (x : Reg) (s : State) : Result := .next (s.storeAtI (decimalDigits (s.reg x)) (encode (.ldB x)))

/-- Fx55: store V0 to Vx at I (42_index_memory.md R155). -/
def execStoreRegs (x : Reg) (s : State) : Result := .next (s.storeAtI (s.firstRegs x) (encode (.storeRegs x)))

/-- Fx65: load V0 to Vx from I; OutOfBounds before any register is written (42_index_memory.md R156). -/
def execLoadRegs (x : Reg) (s : State) : Result :=
  match s.mem.readSpan s.base (x.val + 1) with
  | .ok bs => .next { s.advancePc with V := loadFrom 0 bs s.V }
  | .error a => .next (s.raise .outOfBounds a (encode (.loadRegs x)))

end Sys2Proof.Machine
end

