-- ==== Sys2Proof/Machine/Reserved.lean ====
section
/-! DEFINITION. The three reserved spaces (30_encoding.md R81). Vx is not read, so no KeyIndexOutOfRange. -/

namespace Sys2Proof.Machine

/-- RSVD8 (30_encoding.md R81). -/
def execRsvd8 (x y : Reg) (n : Nibble) (s : State) : Result :=
  .next (s.unrecognised Config.strictOpcodes (encode (.rsvd8 x y n)))

/-- RSVDE (30_encoding.md R81). -/
def execRsvdE (x : Reg) (kk : Byte) (s : State) : Result :=
  .next (s.unrecognised Config.strictOpcodes (encode (.rsvdE x kk)))

/-- RSVDF (30_encoding.md R81). -/
def execRsvdF (x : Reg) (kk : Byte) (s : State) : Result :=
  .next (s.unrecognised Config.strictOpcodes (encode (.rsvdF x kk)))

end Sys2Proof.Machine
end

