-- ==== Sys2Proof/Machine/TimerKey.lean ====
section
/-! DEFINITION. Timer and keypad instructions (44_timer_key.md R190 to R200). The poll of the key wait and the tick
event are `State.pollKeys` and `State.tick` in Machine/Ops.lean. -/

namespace Sys2Proof.Machine

/-- Fx07: Vx ← DT (44_timer_key.md R191). -/
def execLdVxDT (x : Reg) (s : State) : Result := .next (s.setReg x s.DT).advancePc

/-- Fx15: DT ← Vx (44_timer_key.md R192). -/
def execLdDTVx (x : Reg) (s : State) : Result := .next { s.advancePc with DT := s.reg x }

/-- Fx18: ST ← Vx (44_timer_key.md R193). -/
def execLdSTVx (x : Reg) (s : State) : Result := .next { s.advancePc with ST := s.reg x }

/-- A skip on the key named by Vx being in the wanted state; KeyIndexOutOfRange above 15 (44_timer_key.md R194, R195).
`w` is the word of the instruction. -/
def State.skipIfKey (s : State) (x : Reg) (wanted : Bool) (w : Word) : State :=
  if (s.reg x).toNat > 15 then s.raise .keyIndexOutOfRange (s.reg x).toNat w
  else s.skipIf (s.keyDown (s.reg x).toNat == wanted)

/-- Ex9E: skip if key Vx is pressed (44_timer_key.md R194). -/
def execSkp (x : Reg) (s : State) : Result := .next (s.skipIfKey x true (encode (.skp x)))

/-- ExA1: skip if key Vx is not pressed (44_timer_key.md R195). -/
def execSknp (x : Reg) (s : State) : Result := .next (s.skipIfKey x false (encode (.sknp x)))

/-- Fx0A: begin the key wait; no register is written yet (44_timer_key.md R200). -/
def execLdVxK (x : Reg) (s : State) : Result :=
  .next { s.advancePc with mode := .awaitingKey, waitReg := x, keyPrev := s.input.keys }

end Sys2Proof.Machine
end

