-- ==== Sys2Proof/Machine/Cycle.lean ====
section
/-! DEFINITION. The three events of CORE (10_state.md R36): the step event, the tick event and the reset event. -/

namespace Sys2Proof.Machine

/-- One fetch, decode and execute (30_encoding.md R74, R75). A fetch that faults records word 0. -/
def State.runInstruction (s : State) : Result :=
  match s.fetchWord with
  | .error a => .next (s.raise .outOfBounds a 0)
  | .ok w => exec (decodeWord w) s

/-- The step event on the lines that `s.input` holds, the output pulse at 0 until an instruction sets it
(30_encoding.md R75, R77, 60_exceptions.md R213, R221, 10_state.md R38): nothing when a fault is latched, a poll in
mode AwaitingKey, else one instruction. -/
def State.stepEvent (s : State) : Result :=
  let s := { s with displayUpdated := false }
  match s.fault with
  | some _ => .next s
  | none =>
    match s.mode with
    | .awaitingKey => .next s.pollKeys
    | .running => s.runInstruction

/-- An event of 10_state.md R36. -/
inductive Event where
  | reset (rom : List Byte)
  | tick
  | step (keys : Keys) (rnd : Byte)
  deriving DecidableEq, Repr

/-- What an event does (10_state.md R36). The step event samples the two inputs it is raised with. -/
def State.onEvent (s : State) : Event → Result
  | .reset rom => .next (s.resetWith rom)
  | .tick => .next s.tick
  | .step keys rnd => State.stepEvent { s with input := { s.input with keys := keys, rnd := rnd } }

/-- After a step the host drives the lines for the next one. -/
def nextLines : Result → Result
  | .next s => .next s.nextInput
  | .fault r => .fault r
  | .refused r => .refused r

/-- The ticks the host raises before the step, then the step event, then new input lines (10_state.md R37). -/
def State.cycle (s : State) : Result := nextLines (s.runTicks s.input.ticks).stepEvent

/-- The state with a word stored where the next fetch reads, the core running and no fault latched, so that the next
step runs it; the state itself when no word can be fetched at pc. It stands for the load of a program from outside:
notes/assumptions/13.md and 19.md. -/
def State.placeWord (s : State) (w : Word) : State :=
  match s.mem.writeSpan s.pc.toNat (bytesOfWord w) with
  | .ok m => { s with mem := m, mode := .running, fault := none }
  | .error _ => s

end Sys2Proof.Machine
end

