-- ==== Sys2Proof/Machine/Step.lean ====
section
/-! DEFINITION. One step of the machine, and the placing of one instruction for the host. -/

namespace Sys2Proof.Machine

/-- One step: the tick events due, one step event (30_encoding.md R75), the lines for the next step
(10_state.md R27, R37). -/
def step (s : State) : Host.Outcome State Fault Refusal := s.cycle

/-- The instruction whose bits the opcode table numbers as `w`, stored where `step` fetches next. -/
def State.withFetchWord (s : State) (nbits w : Nat) : State := s.placeWord (tableWord nbits w)

end Sys2Proof.Machine
end

