-- ==== Sys2Proof/Safety.lean ====
section
/-! DEFINITION. The terms the claims use: frames, the invariant of 10_state.md R40, the opcode map of
30_encoding.md R79 as a table, the destination registers of an instruction, and a sprite's pixels. -/

namespace Sys2Proof.Machine

/-! ## Frames -/

/-- Every byte of memory reads as before. -/
def SameMemory (s t : State) : Prop := ∀ a, t.mem.read a = s.mem.read a

/-- Every byte outside the `n` bytes from `addr` on reads as before. -/
def SameMemoryOutside (addr n : Nat) (s t : State) : Prop :=
  ∀ a, (a < addr ∨ addr + n ≤ a) → t.mem.read a = s.mem.read a

/-- At most V and pc differ, and in V only the registers of `dst`: every flag other than them, every timer, the index
register, the stack, the display, every byte of memory, the engine state and the fault latch are as before. -/
def RegFrame (dst : List Reg) (s t : State) : Prop :=
  (∀ r, r ∉ dst → t.reg r = s.reg r) ∧ t = { s with V := t.V, pc := t.pc } ∧ SameMemory s t

/-- The word of the instruction has the given value in the bits of the mask (30_encoding.md R79). -/
def Encodes (i : Instr) (mask value : Word) : Prop := encode i &&& mask = value

/-! ## Runs -/

/-- `k` steps, stopping at the first outcome that is no next state; equal to Host.Core.run of the core
(core_run_eq in Laws/Run.lean). -/
def runSteps : Nat → State → Result
  | 0, s => .next s
  | k + 1, s =>
    match step s with
    | .next t => runSteps k t
    | .fault r => .fault r
    | .refused r => .refused r

/-! ## The invariant -/

/-- What holds after reset and after every event (10_state.md R40): the memory is canonical and has no byte outside
0 to 4095, pc is in 0 to 4350, every occupied stack entry is in 2 to 4096; and a latched fault names the address that
pc still holds (60_exceptions.md R212). The other ranges of R40 are the types of the fields. -/
structure State.Inv (s : State) : Prop where
  memory : s.mem.wf = true
  pcRange : s.pc.toNat ≤ 4350
  returns : ∀ k : Fin 16, k.val < s.sp.val → 2 ≤ (s.stack[k.val]).toNat ∧ (s.stack[k.val]).toNat ≤ 4096
  faultPc : ∀ r, s.fault = some r → r.fpc = s.pc

/-! ## The opcode map -/

/-- A row of the opcode map (30_encoding.md R79). -/
structure OpcodeRow where
  mnemonic : String
  mask  : Word
  value : Word
  deriving DecidableEq, Repr

/-- Families 0 to 7; 00E0 and 00EE stand before 0nnn (30_encoding.md R79, R84). -/
def opcodeRows0to7 : List OpcodeRow :=
  [⟨"00E0", 0xF0FF, 0x00E0⟩, ⟨"00EE", 0xF0FF, 0x00EE⟩, ⟨"0nnn", 0xF000, 0x0000⟩, ⟨"1nnn", 0xF000, 0x1000⟩,
   ⟨"2nnn", 0xF000, 0x2000⟩, ⟨"3xkk", 0xF000, 0x3000⟩, ⟨"4xkk", 0xF000, 0x4000⟩, ⟨"5xy0", 0xF000, 0x5000⟩,
   ⟨"6xkk", 0xF000, 0x6000⟩, ⟨"7xkk", 0xF000, 0x7000⟩]

/-- Families 8 to D (30_encoding.md R79). -/
def opcodeRows8toD : List OpcodeRow :=
  [⟨"8xy0", 0xF00F, 0x8000⟩, ⟨"8xy1", 0xF00F, 0x8001⟩, ⟨"8xy2", 0xF00F, 0x8002⟩, ⟨"8xy3", 0xF00F, 0x8003⟩,
   ⟨"8xy4", 0xF00F, 0x8004⟩, ⟨"8xy5", 0xF00F, 0x8005⟩, ⟨"8xy6", 0xF00F, 0x8006⟩, ⟨"8xy7", 0xF00F, 0x8007⟩,
   ⟨"8xyE", 0xF00F, 0x800E⟩, ⟨"9xy0", 0xF000, 0x9000⟩, ⟨"Annn", 0xF000, 0xA000⟩, ⟨"Bnnn", 0xF000, 0xB000⟩,
   ⟨"Cxkk", 0xF000, 0xC000⟩, ⟨"Dxyn", 0xF000, 0xD000⟩]

/-- Families E and F (30_encoding.md R79). -/
def opcodeRowsEF : List OpcodeRow :=
  [⟨"Ex9E", 0xF0FF, 0xE09E⟩, ⟨"ExA1", 0xF0FF, 0xE0A1⟩, ⟨"Fx07", 0xF0FF, 0xF007⟩, ⟨"Fx0A", 0xF0FF, 0xF00A⟩,
   ⟨"Fx15", 0xF0FF, 0xF015⟩, ⟨"Fx18", 0xF0FF, 0xF018⟩, ⟨"Fx1E", 0xF0FF, 0xF01E⟩, ⟨"Fx29", 0xF0FF, 0xF029⟩,
   ⟨"Fx33", 0xF0FF, 0xF033⟩, ⟨"Fx55", 0xF0FF, 0xF055⟩, ⟨"Fx65", 0xF0FF, 0xF065⟩]

/-- The 35 instructions in the order of the map, then the reserved spaces (30_encoding.md R79, R81). The first row
that matches a word selects it (R84). -/
def opcodeMap : List OpcodeRow :=
  opcodeRows0to7 ++ opcodeRows8toD ++ opcodeRowsEF ++
  [⟨"RSVD8", 0xF000, 0x8000⟩, ⟨"RSVDE", 0xF000, 0xE000⟩, ⟨"RSVDF", 0xF000, 0xF000⟩]

/-- The row of the opcode table that an instruction is. -/
def mnemonicOf : Instr → String
  | .cls _ => "00E0"        | .ret _ => "00EE"       | .sys _ => "0nnn"       | .jp _ => "1nnn"
  | .call _ => "2nnn"       | .seImm _ _ => "3xkk"   | .sneImm _ _ => "4xkk"  | .seReg _ _ _ => "5xy0"
  | .ldImm _ _ => "6xkk"    | .addImm _ _ => "7xkk"  | .ldReg _ _ => "8xy0"   | .orReg _ _ => "8xy1"
  | .andReg _ _ => "8xy2"   | .xorReg _ _ => "8xy3"  | .addReg _ _ => "8xy4"  | .subReg _ _ => "8xy5"
  | .shr _ _ => "8xy6"      | .subn _ _ => "8xy7"    | .shl _ _ => "8xyE"     | .sneReg _ _ _ => "9xy0"
  | .ldI _ => "Annn"        | .jpV0 _ => "Bnnn"      | .rnd _ _ => "Cxkk"     | .drw _ _ _ => "Dxyn"
  | .skp _ => "Ex9E"        | .sknp _ => "ExA1"      | .ldVxDT _ => "Fx07"    | .ldVxK _ => "Fx0A"
  | .ldDTVx _ => "Fx15"     | .ldSTVx _ => "Fx18"    | .addI _ => "Fx1E"      | .ldF _ => "Fx29"
  | .ldB _ => "Fx33"        | .storeRegs _ => "Fx55" | .loadRegs _ => "Fx65"  | .rsvd8 _ _ _ => "RSVD8"
  | .rsvdE _ _ => "RSVDE"   | .rsvdF _ _ => "RSVDF"

/-! ## The unrecognised words -/

/-- The unrecognised words by number, family and selector as 30_encoding.md R81 lists them. -/
def unrecognisedWord (w : Word) : Bool :=
  (w.toNat / 4096 == 0x8 && [0x8, 0x9, 0xA, 0xB, 0xC, 0xD, 0xF].contains (w.toNat % 16)) ||
  (w.toNat / 4096 == 0xE && !([0x9E, 0xA1] : List Nat).contains (w.toNat % 256)) ||
  (w.toNat / 4096 == 0xF && !([0x07, 0x0A, 0x15, 0x18, 0x1E, 0x29, 0x33, 0x55, 0x65] : List Nat).contains (w.toNat % 256))

/-- The instruction is one of the three rows of kind reserved (30_encoding.md R81). -/
def reservedRow : Instr → Bool
  | .rsvd8 _ _ _ | .rsvdE _ _ | .rsvdF _ _ => true
  | .cls _ | .ret _ | .sys _ | .jp _ | .call _ | .seImm _ _ | .sneImm _ _ | .seReg _ _ _ | .ldImm _ _ | .addImm _ _
  | .ldReg _ _ | .orReg _ _ | .andReg _ _ | .xorReg _ _ | .addReg _ _ | .subReg _ _ | .shr _ _ | .subn _ _
  | .shl _ _ | .sneReg _ _ _ | .ldI _ | .jpV0 _ | .rnd _ _ | .drw _ _ _ | .skp _ | .sknp _ | .ldVxDT _
  | .ldVxK _ | .ldDTVx _ | .ldSTVx _ | .addI _ | .ldF _ | .ldB _ | .storeRegs _ | .loadRegs _ => false

/-! ## Destination registers -/

/-- The general registers an instruction may write in its own step (10_state.md R41): Vx, or V0 to Vx for Fx65, and VF
for the six flag writers. Fx0A writes none in its own step (44_timer_key.md R200). -/
def destRegs : Instr → List Reg
  | .ldImm x _ | .addImm x _ | .ldReg x _ | .orReg x _ | .andReg x _ | .xorReg x _ | .rnd x _ | .ldVxDT x => [x]
  | .addReg x _ | .subReg x _ | .shr x _ | .subn x _ | .shl x _ => [x, regVF]
  | .drw _ _ _ => [regVF]
  | .loadRegs x => (List.finRange 16).filter fun r => decide (r.val ≤ x.val)
  | .cls _ | .ret _ | .sys _ | .jp _ | .call _ | .seImm _ _ | .sneImm _ _ | .seReg _ _ _ | .sneReg _ _ _ | .ldI _
  | .jpV0 _ | .skp _ | .sknp _ | .ldVxK _ | .ldDTVx _ | .ldSTVx _ | .addI _ | .ldF _ | .ldB _ | .storeRegs _
  | .rsvd8 _ _ _ | .rsvdE _ _ | .rsvdF _ _ => []

/-! ## Sprites -/

/-- The sprite bit that Dxyn draws at row r and column c, for a sprite of `rows` visible rows with its top left corner
at (y0, x0): bit 7 - (c - x0) of the byte of row r, and nothing outside the sprite (43_display.md R172, R173). -/
def spriteBit (s : State) (x0 y0 rows r c : Nat) : Bool :=
  decide (y0 ≤ r) && decide (r < y0 + rows) && decide (x0 ≤ c) && decide (c < x0 + 8) &&
    (s.mem.read (s.base + (r - y0))).getLsbD (7 - (c - x0))

end Sys2Proof.Machine
end

