-- ==== Sys2Proof/Certificates/Slice0/Obligations.lean ====
section
/-! DEFINITION. The statements for the provers, from the numbered rules of spec/. A statement marked `derived` in
OBLIGATIONS.json rests in some clause on a choice of the spec's own (its decisions D<n>) or of the model; its docstring
names the log entry. `s.pc` is A, the address the instruction was fetched from. -/

open Sys2Proof Sys2Proof.Machine

/-! ## Encoding -/

/-- The words of 95_test_vectors.md section 2.1 decode to the instructions they stand for (30_encoding.md R71, R78 to
R81). The words with ignored digits rest on notes/assumptions/11.md. -/
def Obligations.SpecWordsDecode : Prop :=
  decodeWord 0x8AB4 = .addReg 0xA 0xB ∧ decodeWord 0xD12F = .drw 1 2 0xF ∧ decodeWord 0x0000 = .sys 0x000 ∧
  decodeWord 0x00E1 = .sys 0x0E1 ∧ decodeWord 0x01E0 = .cls 1 ∧ decodeWord 0x0AEE = .ret 0xA ∧
  decodeWord 0x5121 = .seReg 1 2 1 ∧ decodeWord 0x912F = .sneReg 1 2 0xF ∧ decodeWord 0x8128 = .rsvd8 1 2 8 ∧
  decodeWord 0xE19F = .rsvdE 1 0x9F ∧ decodeWord 0xF1FF = .rsvdF 1 0xFF ∧ decodeWord 0xF130 = .rsvdF 1 0x30

/-- Decoding the bytes of any well-formed instruction gives it back and leaves the rest of the bytes
(30_encoding.md R70, R84). The ignored digits are operands: notes/assumptions/8.md. -/
def Obligations.DecodeOfEncodeGivesBack : Prop :=
  ∀ (i : Instr) (rest : List Byte), i.wf = true → decode (encodeBytes i ++ rest) = .ok (i, rest)

/-- Every 16-bit word selects a well-formed instruction whose encoding is the word: no bit is lost and no two words
read alike (30_encoding.md R73, R84). The ignored digits are operands: notes/assumptions/8.md. -/
def Obligations.EncodeOfDecodeGivesBack : Prop :=
  ∀ w : Word, (decodeWord w).wf = true ∧ encode (decodeWord w) = w

/-- The decoder selects, for every word, the first row of the opcode map whose match the word has under the row's mask
(30_encoding.md R79, R84; the reserved rows R81). The masks of 00E0, 00EE, 5xy0, 9xy0 are decision D2:
notes/assumptions/11.md. -/
def Obligations.DispatchFollowsOpcodeMap : Prop :=
  ∀ w : Word, (opcodeMap.find? fun r => w &&& r.mask == r.value).map OpcodeRow.mnemonic = some (mnemonicOf (decodeWord w))

/-! ## Register loads, arithmetic, logic, shifts -/

/-- 6xkk writes kk, 7xkk writes the sum modulo 256; VF and every other register are unchanged unless x is 15
(41_alu.md R121, R122). -/
def Obligations.LoadAndAddImmediate : Prop :=
  ∀ (s : State) (x : Reg) (kk : Byte),
    Encodes (.ldImm x kk) 0xF000 0x6000 ∧ Encodes (.addImm x kk) 0xF000 0x7000 ∧
    (∃ t, exec (.ldImm x kk) s = .next t ∧ t.reg x = kk ∧ t.pc = s.pc + 2 ∧ RegFrame [x] s t) ∧
    (∃ t, exec (.addImm x kk) s = .next t ∧ (t.reg x).toNat = ((s.reg x).toNat + kk.toNat) % 256 ∧
      t.pc = s.pc + 2 ∧ RegFrame [x] s t)

/-- 8xy0 copies Vy, 8xy1, 8xy2, 8xy3 are the bitwise operations, bit by bit; VF is not modified unless x is 15
(41_alu.md R123 to R126). -/
def Obligations.CopyAndBitwise : Prop :=
  ∀ (s : State) (x y : Reg),
    Encodes (.ldReg x y) 0xF00F 0x8000 ∧ Encodes (.orReg x y) 0xF00F 0x8001 ∧ Encodes (.andReg x y) 0xF00F 0x8002 ∧
    Encodes (.xorReg x y) 0xF00F 0x8003 ∧
    (∃ t, exec (.ldReg x y) s = .next t ∧ t.reg x = s.reg y ∧ t.pc = s.pc + 2 ∧ RegFrame [x] s t) ∧
    (∃ t, exec (.orReg x y) s = .next t ∧
      (∀ k < 8, (t.reg x).getLsbD k = ((s.reg x).getLsbD k || (s.reg y).getLsbD k)) ∧ t.pc = s.pc + 2 ∧ RegFrame [x] s t) ∧
    (∃ t, exec (.andReg x y) s = .next t ∧
      (∀ k < 8, (t.reg x).getLsbD k = ((s.reg x).getLsbD k && (s.reg y).getLsbD k)) ∧ t.pc = s.pc + 2 ∧ RegFrame [x] s t) ∧
    (∃ t, exec (.xorReg x y) s = .next t ∧
      (∀ k < 8, (t.reg x).getLsbD k = ((s.reg x).getLsbD k ^^ (s.reg y).getLsbD k)) ∧ t.pc = s.pc + 2 ∧ RegFrame [x] s t)

/-- 8xy4: VF ends as the carry of the sum of the old operands, also when x is 15; otherwise Vx ends as the sum modulo
256 (41_alu.md R127). -/
def Obligations.AddSetsCarry : Prop :=
  ∀ (s : State) (x y : Reg),
    Encodes (.addReg x y) 0xF00F 0x8004 ∧
    ∃ t, exec (.addReg x y) s = .next t ∧
      t.reg 15 = (if (s.reg x).toNat + (s.reg y).toNat > 255 then 1 else 0) ∧
      (x ≠ 15 → (t.reg x).toNat = ((s.reg x).toNat + (s.reg y).toNat) % 256) ∧
      t.pc = s.pc + 2 ∧ RegFrame [x, 15] s t

/-- 8xy5 and 8xy7: VF ends as 1 exactly when the minuend is strictly greater, also when x is 15; otherwise Vx ends as
the difference modulo 256 (41_alu.md R128, R130). -/
def Obligations.SubtractSetsStrictlyGreater : Prop :=
  ∀ (s : State) (x y : Reg),
    Encodes (.subReg x y) 0xF00F 0x8005 ∧ Encodes (.subn x y) 0xF00F 0x8007 ∧
    (∃ t, exec (.subReg x y) s = .next t ∧ t.reg 15 = (if (s.reg x).toNat > (s.reg y).toNat then 1 else 0) ∧
      (x ≠ 15 → ((t.reg x).toNat : Int) = ((s.reg x).toNat - (s.reg y).toNat : Int) % 256) ∧
      t.pc = s.pc + 2 ∧ RegFrame [x, 15] s t) ∧
    (∃ t, exec (.subn x y) s = .next t ∧ t.reg 15 = (if (s.reg y).toNat > (s.reg x).toNat then 1 else 0) ∧
      (x ≠ 15 → ((t.reg x).toNat : Int) = ((s.reg y).toNat - (s.reg x).toNat : Int) % 256) ∧
      t.pc = s.pc + 2 ∧ RegFrame [x, 15] s t)

/-- 8xy6 and 8xyE shift Vy by one into Vx and put the lost bit in VF, last; Vx's old value is not used
(41_alu.md R129, R131). -/
def Obligations.ShiftsTakeVyAndSetLostBit : Prop :=
  ∀ (s : State) (x y : Reg),
    Encodes (.shr x y) 0xF00F 0x8006 ∧ Encodes (.shl x y) 0xF00F 0x800E ∧
    (∃ t, exec (.shr x y) s = .next t ∧ (t.reg 15).toNat = (s.reg y).toNat % 2 ∧
      (x ≠ 15 → (t.reg x).toNat = (s.reg y).toNat / 2) ∧ t.pc = s.pc + 2 ∧ RegFrame [x, 15] s t) ∧
    (∃ t, exec (.shl x y) s = .next t ∧ (t.reg 15).toNat = (s.reg y).toNat / 128 ∧
      (x ≠ 15 → (t.reg x).toNat = 2 * (s.reg y).toNat % 256) ∧ t.pc = s.pc + 2 ∧ RegFrame [x, 15] s t)

/-- Cxkk: Vx is the random byte of this step masked with kk, whatever the byte is (41_alu.md R132; that the byte is a
free input of the step is decision D9, notes/assumptions/1.md). -/
def Obligations.RandomByteIsMasked : Prop :=
  ∀ (s : State) (x : Reg) (kk : Byte),
    Encodes (.rnd x kk) 0xF000 0xC000 ∧
    ∃ t, exec (.rnd x kk) s = .next t ∧ (∀ k < 8, (t.reg x).getLsbD k = (s.input.rnd.getLsbD k && kk.getLsbD k)) ∧
      t.reg x &&& ~~~kk = 0 ∧ t.pc = s.pc + 2 ∧ RegFrame [x] s t

/-! ## Control transfer -/

/-- 0nnn does nothing, 1nnn jumps to nnn, Bnnn jumps to nnn + V0 without reduction (40_control.md R101, R103, R109). -/
def Obligations.NoopAndJumps : Prop :=
  ∀ (s : State) (nnn : Imm12),
    Encodes (.sys nnn) 0xF000 0x0000 ∧ Encodes (.jp nnn) 0xF000 0x1000 ∧ Encodes (.jpV0 nnn) 0xF000 0xB000 ∧
    (∃ t, exec (.sys nnn) s = .next t ∧ t.pc = s.pc + 2 ∧ RegFrame [] s t) ∧
    (∃ t, exec (.jp nnn) s = .next t ∧ t.pc.toNat = nnn.toNat ∧ RegFrame [] s t) ∧
    (∃ t, exec (.jpV0 nnn) s = .next t ∧ t.pc.toNat = nnn.toNat + (s.reg 0).toNat ∧ RegFrame [] s t)

/-- 3xkk skips when Vx = kk, 4xkk when it differs: pc is A + 4 or A + 2 (40_control.md R105, R106). -/
def Obligations.ImmediateSkips : Prop :=
  ∀ (s : State) (x : Reg) (kk : Byte),
    Encodes (.seImm x kk) 0xF000 0x3000 ∧ Encodes (.sneImm x kk) 0xF000 0x4000 ∧
    (∃ t, exec (.seImm x kk) s = .next t ∧ t.pc = s.pc + (if s.reg x = kk then 4 else 2) ∧ RegFrame [] s t) ∧
    (∃ t, exec (.sneImm x kk) s = .next t ∧ t.pc = s.pc + (if s.reg x ≠ kk then 4 else 2) ∧ RegFrame [] s t)

/-- 5xy0 skips when Vx = Vy, 9xy0 when they differ, whatever the last digit is (40_control.md R107, R108; the ignored
digit is decision D2, notes/assumptions/11.md). -/
def Obligations.RegisterSkips : Prop :=
  ∀ (s : State) (x y : Reg) (ign : Nibble),
    Encodes (.seReg x y ign) 0xF000 0x5000 ∧ Encodes (.sneReg x y ign) 0xF000 0x9000 ∧
    (∃ t, exec (.seReg x y ign) s = .next t ∧ t.pc = s.pc + (if s.reg x = s.reg y then 4 else 2) ∧ RegFrame [] s t) ∧
    (∃ t, exec (.sneReg x y ign) s = .next t ∧ t.pc = s.pc + (if s.reg x ≠ s.reg y then 4 else 2) ∧ RegFrame [] s t)

/-- 2nnn pushes A + 2 in the next free slot and jumps; with 16 entries occupied it raises StackOverflow(16) and changes
nothing but the latch (40_control.md R104, 60_exceptions.md R215; the record and the frozen state are decisions D5, D6,
notes/assumptions/4.md, 17.md and 23.md). -/
def Obligations.CallPushesOrOverflows : Prop :=
  ∀ (s : State) (nnn : Imm12),
    (s.sp.val < 16 → ∃ t, exec (.call nnn) s = .next t ∧ t.pc.toNat = nnn.toNat ∧ t.sp.val = s.sp.val + 1 ∧
      (∀ k : Fin 16, t.stack[k.val] = if k.val = s.sp.val then s.pc + 2 else s.stack[k.val]) ∧
      t = { s with pc := t.pc, sp := t.sp, stack := t.stack } ∧ SameMemory s t) ∧
    (s.sp.val = 16 → exec (.call nnn) s = .next { s with
      fault := some { cause := .stackOverflow, addr := 16, fpc := s.pc, finstr := encode (.call nnn) } })

/-- 00EE pops the last pushed entry into pc and leaves it in the array; with an empty stack it raises StackUnderflow(0)
and changes nothing but the latch (40_control.md R102, 60_exceptions.md R216; the ignored digit is decision D2, the
record D5, D6: notes/assumptions/4.md, 11.md and 23.md). -/
def Obligations.ReturnPopsOrUnderflows : Prop :=
  ∀ (s : State) (ign : Nibble),
    (0 < s.sp.val → ∃ t, exec (.ret ign) s = .next t ∧ t.sp.val + 1 = s.sp.val ∧
      (∀ k : Fin 16, k.val + 1 = s.sp.val → t.pc = s.stack[k.val]) ∧ t = { s with pc := t.pc, sp := t.sp } ∧
      SameMemory s t) ∧
    (s.sp.val = 0 → exec (.ret ign) s = .next { s with
      fault := some { cause := .stackUnderflow, addr := 0, fpc := s.pc, finstr := encode (.ret ign) } })

/-- A call followed by a return restores pc to the instruction after the call and sp to its value before it; of the
stack only the slot that the call wrote, number sp, may have changed (the property quoted in 40_control.md R104). That it
holds for every ignored digit `ign` of 00EE is decision D2: notes/assumptions/11.md. -/
def Obligations.CallThenReturnRestores : Prop :=
  ∀ (s : State) (nnn : Imm12) (ign : Nibble), s.sp.val < 16 →
    ∃ t u, exec (.call nnn) s = .next t ∧ exec (.ret ign) t = .next u ∧ u.pc = s.pc + 2 ∧ u.sp = s.sp ∧
      (∀ k : Fin 16, k.val ≠ s.sp.val → u.stack[k.val] = s.stack[k.val]) ∧ u = { s with pc := u.pc, stack := u.stack }

/-! ## Index register and memory -/

/-- Annn loads nnn, Fx1E adds Vx modulo 65536, Fx29 gives FONT_BASE + 5 * Vx on the whole byte; no general register, VF
included, changes (42_index_memory.md R151, R152, R153). -/
def Obligations.IndexRegisterWrites : Prop :=
  ∀ (s : State) (nnn : Imm12) (x : Reg),
    Encodes (.ldI nnn) 0xF000 0xA000 ∧ Encodes (.addI x) 0xF0FF 0xF01E ∧ Encodes (.ldF x) 0xF0FF 0xF029 ∧
    (∃ t, exec (.ldI nnn) s = .next t ∧ t.I.toNat = nnn.toNat ∧ t.pc = s.pc + 2 ∧
      t = { s with I := t.I, pc := t.pc } ∧ SameMemory s t) ∧
    (∃ t, exec (.addI x) s = .next t ∧ t.I.toNat = (s.I.toNat + (s.reg x).toNat) % 65536 ∧ t.pc = s.pc + 2 ∧
      t = { s with I := t.I, pc := t.pc } ∧ SameMemory s t) ∧
    (∃ t, exec (.ldF x) s = .next t ∧ t.I.toNat = fontBase + 5 * (s.reg x).toNat ∧ t.pc = s.pc + 2 ∧
      t = { s with I := t.I, pc := t.pc } ∧ SameMemory s t)

/-- Fx33 with I at most 4093 stores hundreds, tens and units at I, I+1, I+2 and changes nothing else but pc
(42_index_memory.md R154). The memory is in canonical form, which every event keeps. -/
def Obligations.DecimalDigitsStored : Prop :=
  ∀ (s : State) (x : Reg), s.mem.wf = true → s.base ≤ 4093 →
    ∃ t, exec (.ldB x) s = .next t ∧
      (t.mem.read s.base).toNat = (s.reg x).toNat / 100 ∧
      (t.mem.read (s.base + 1)).toNat = (s.reg x).toNat / 10 % 10 ∧
      (t.mem.read (s.base + 2)).toNat = (s.reg x).toNat % 10 ∧
      SameMemoryOutside s.base 3 s t ∧ t.pc = s.pc + 2 ∧ t = { s with mem := t.mem, pc := t.pc }

/-- Fx55 with I + x at most 4095 stores V0 to Vx at I to I+x and changes nothing else but pc (42_index_memory.md R155).
The memory is in canonical form, which every event keeps. -/
def Obligations.RegistersStored : Prop :=
  ∀ (s : State) (x : Reg), s.mem.wf = true → s.base + x.val ≤ 4095 →
    ∃ t, exec (.storeRegs x) s = .next t ∧ (∀ r : Reg, r ≤ x → t.mem.read (s.base + r.val) = s.reg r) ∧
      SameMemoryOutside s.base (x.val + 1) s t ∧ t.pc = s.pc + 2 ∧ t = { s with mem := t.mem, pc := t.pc }

/-- Fx65 with I + x at most 4095 loads V0 to Vx from I to I+x and changes nothing else but pc (42_index_memory.md
R156). -/
def Obligations.RegistersLoaded : Prop :=
  ∀ (s : State) (x : Reg), s.base + x.val ≤ 4095 →
    ∃ t, exec (.loadRegs x) s = .next t ∧ (∀ r : Reg, r ≤ x → t.reg r = s.mem.read (s.base + r.val)) ∧
      (∀ r : Reg, x < r → t.reg r = s.reg r) ∧ t.pc = s.pc + 2 ∧ t = { s with V := t.V, pc := t.pc } ∧ SameMemory s t

/-- What Fx55 stored, Fx65 with the same x and I brings back, whatever the registers hold in between
(42_index_memory.md R155, R156, R157). -/
def Obligations.StoredRegistersLoadBack : Prop :=
  ∀ (s : State) (x : Reg) (v : Vector Byte 16), s.mem.wf = true → s.base + x.val ≤ 4095 →
    ∃ t u, exec (.storeRegs x) s = .next t ∧ exec (.loadRegs x) { t with V := v } = .next u ∧
      (∀ r : Reg, r ≤ x → u.reg r = s.reg r) ∧ u.I = s.I

/-- An access that would touch an address above 4095 raises OutOfBounds with the lowest such address, and nothing else
changes: Fx33, Fx55, Fx65, and Dxyn on the rows that land on the screen (60_exceptions.md R214, 42_index_memory.md R154
to R156, 43_display.md R176; the record and the frozen state are decisions D5, D6, the skipped rows D12:
notes/assumptions/4.md, 20.md, 23.md and 25.md). -/
def Obligations.OutOfBoundsTransfersFault : Prop :=
  ∀ (s : State) (x y : Reg) (n : Nibble),
    (s.base + 2 > 4095 → exec (.ldB x) s = .next { s with
      fault := some { cause := .outOfBounds, addr := max s.base 4096, fpc := s.pc, finstr := encode (.ldB x) } }) ∧
    (s.base + x.val > 4095 → exec (.storeRegs x) s = .next { s with
      fault := some { cause := .outOfBounds, addr := max s.base 4096, fpc := s.pc, finstr := encode (.storeRegs x) } }) ∧
    (s.base + x.val > 4095 → exec (.loadRegs x) s = .next { s with
      fault := some { cause := .outOfBounds, addr := max s.base 4096, fpc := s.pc, finstr := encode (.loadRegs x) } }) ∧
    (0 < min n.toNat (32 - (s.reg y).toNat % 32) → s.base + min n.toNat (32 - (s.reg y).toNat % 32) - 1 > 4095 →
      exec (.drw x y n) s = .next { s with
        fault := some { cause := .outOfBounds, addr := max s.base 4096, fpc := s.pc, finstr := encode (.drw x y n) } })

/-- Bytes stored by Fx55 at the following instruction are what the next fetch reads: self-modifying code needs no
barrier (20_memory.md R64, derived there). -/
def Obligations.FetchSeesStores : Prop :=
  ∀ (s : State) (x : Reg), s.mem.wf = true → s.base = s.pc.toNat + 2 → 1 ≤ x.val → s.base + x.val ≤ 4095 →
    ∃ t, exec (.storeRegs x) s = .next t ∧ t.fetchWord = .ok (s.reg 0 ++ s.reg 1)

/-! ## Display -/

/-- 00E0 makes every pixel 0 for any prior display, pulses display_updated and changes nothing else but pc
(43_display.md R171; the ignored digit is decision D2, the pulse D16: notes/assumptions/9.md and 11.md). -/
def Obligations.ClearScreenClearsEveryPixel : Prop :=
  ∀ (s : State) (ign : Nibble),
    ∃ t, exec (.cls ign) s = .next t ∧ (∀ r c, t.fb.pixel r c = false) ∧ t.displayUpdated = true ∧ t.pc = s.pc + 2 ∧
      t = { s with fb := t.fb, displayUpdated := t.displayUpdated, pc := t.pc } ∧ SameMemory s t

/-- Dxyn, pixel by pixel: with the corner at (Vy mod 32, Vx mod 64) and min(n, 32 - y0) visible rows, every pixel of the
display is XORed with the sprite bit that falls on it, clipped at both edges; VF is 1 exactly when a sprite bit met a set
pixel, else 0; nothing else changes but pc and the pulse (43_display.md R172 to R176; reading the visible rows only is
decision D12, the pulse D16: notes/assumptions/9.md and 20.md). -/
def Obligations.DrawXorsClippedSprite : Prop :=
  ∀ (s : State) (x y : Reg) (n : Nibble) (x0 y0 rows : Nat),
    x0 = (s.reg x).toNat % 64 → y0 = (s.reg y).toNat % 32 → rows = min n.toNat (32 - y0) →
    (rows = 0 ∨ s.base + rows - 1 ≤ 4095) →
    ∃ t, exec (.drw x y n) s = .next t ∧
      (∀ r < 32, ∀ c < 64, t.fb.pixel r c = (s.fb.pixel r c ^^ spriteBit s x0 y0 rows r c)) ∧
      (t.reg 15 = 1 ↔ ∃ r < 32, ∃ c < 64, s.fb.pixel r c = true ∧ spriteBit s x0 y0 rows r c = true) ∧
      (t.reg 15 = 0 ∨ t.reg 15 = 1) ∧ (∀ r, r ≠ 15 → t.reg r = s.reg r) ∧ t.displayUpdated = true ∧ t.pc = s.pc + 2 ∧
      t = { s with fb := t.fb, V := t.V, displayUpdated := t.displayUpdated, pc := t.pc } ∧ SameMemory s t

/-- Drawing the same sprite again at the same place restores the display; on a display that was clear, the second
drawing reports a collision when some sprite bit falls on the screen (43_display.md R174, derived there; 20.md of the
log for the rows read). -/
def Obligations.DrawTwiceRestoresDisplay : Prop :=
  ∀ (s : State) (x y : Reg) (n : Nibble) (x0 y0 rows : Nat),
    x0 = (s.reg x).toNat % 64 → y0 = (s.reg y).toNat % 32 → rows = min n.toNat (32 - y0) →
    (rows = 0 ∨ s.base + rows - 1 ≤ 4095) →
    ∃ t u, exec (.drw x y n) s = .next t ∧ exec (.drw x y n) { t with V := s.V } = .next u ∧
      (∀ r < 32, ∀ c < 64, u.fb.pixel r c = s.fb.pixel r c) ∧
      ((∀ r < 32, ∀ c < 64, s.fb.pixel r c = false) → (∃ r < 32, ∃ c < 64, spriteBit s x0 y0 rows r c = true) →
        u.reg 15 = 1)

/-! ## Timers and keys -/

/-- Fx07 reads DT, Fx15 sets DT, Fx18 sets ST and with it the output sound_on; each changes nothing else but pc
(44_timer_key.md R191, R192, R193). -/
def Obligations.TimerInstructions : Prop :=
  ∀ (s : State) (x : Reg),
    Encodes (.ldVxDT x) 0xF0FF 0xF007 ∧ Encodes (.ldDTVx x) 0xF0FF 0xF015 ∧ Encodes (.ldSTVx x) 0xF0FF 0xF018 ∧
    (∃ t, exec (.ldVxDT x) s = .next t ∧ t.reg x = s.DT ∧ t.pc = s.pc + 2 ∧ RegFrame [x] s t) ∧
    (∃ t, exec (.ldDTVx x) s = .next t ∧ t.DT = s.reg x ∧ t.pc = s.pc + 2 ∧
      t = { s with DT := t.DT, pc := t.pc } ∧ SameMemory s t) ∧
    (∃ t, exec (.ldSTVx x) s = .next t ∧ t.ST = s.reg x ∧ (t.soundOn = true ↔ s.reg x ≠ 0) ∧ t.pc = s.pc + 2 ∧
      t = { s with ST := t.ST, pc := t.pc } ∧ SameMemory s t)

/-- The tick event: each timer on its own goes down by one while nonzero, never below 0; nothing else changes but the
pulse, which is 0 after a tick (44_timer_key.md R205; in every state, decision D15; the pulse, notes/assumptions/9.md). -/
def Obligations.TickDecrementsTimers : Prop :=
  ∀ s : State, s.onEvent .tick = .next s.tick ∧
    s.tick.DT.toNat = s.DT.toNat - 1 ∧ s.tick.ST.toNat = s.ST.toNat - 1 ∧
    s.tick = { s with DT := s.tick.DT, ST := s.tick.ST, displayUpdated := false }

/-- A value set by Fx15 reads back through Fx07, j ticks later, as max(t - j, 0); the ticks that a step runs are the
tick event repeated (44_timer_key.md R206; the schedule is free, decision D15, notes/assumptions/2.md). -/
def Obligations.TimerReadsBackAfterTicks : Prop :=
  ∀ (s : State) (x y : Reg) (j : Nat),
    ∃ t u, exec (.ldDTVx y) s = .next t ∧ State.runTicks j t = State.tick^[j] t ∧
      exec (.ldVxDT x) (State.runTicks j t) = .next u ∧ (u.reg x).toNat = (s.reg y).toNat - j

/-- Ex9E skips when key Vx is down in this step's sample, ExA1 when it is up, for Vx at most 15; above 15 both raise
KeyIndexOutOfRange(Vx) and change nothing but the latch (44_timer_key.md R194, R195; the fault is decision D7, the record
D5, D6: notes/assumptions/4.md, 18.md and 23.md). -/
def Obligations.KeySkips : Prop :=
  ∀ (s : State) (x : Reg),
    ((s.reg x).toNat ≤ 15 →
      (∃ t, exec (.skp x) s = .next t ∧
        t.pc = s.pc + (if s.input.keys.getLsbD (s.reg x).toNat = true then 4 else 2) ∧ RegFrame [] s t) ∧
      (∃ t, exec (.sknp x) s = .next t ∧
        t.pc = s.pc + (if s.input.keys.getLsbD (s.reg x).toNat = false then 4 else 2) ∧ RegFrame [] s t)) ∧
    ((s.reg x).toNat > 15 →
      exec (.skp x) s = .next { s with
        fault := some { cause := .keyIndexOutOfRange, addr := (s.reg x).toNat, fpc := s.pc, finstr := encode (.skp x) } } ∧
      exec (.sknp x) s = .next { s with
        fault := some { cause := .keyIndexOutOfRange, addr := (s.reg x).toNat, fpc := s.pc, finstr := encode (.sknp x) } })

/-- Fx0A begins the wait: mode AwaitingKey, the register number and the sampled keys latched, pc advanced, no register
written (44_timer_key.md R200, decision D8: notes/assumptions/12.md). -/
def Obligations.KeyWaitBegins : Prop :=
  ∀ (s : State) (x : Reg),
    ∃ t, exec (.ldVxK x) s = .next t ∧ t.mode = .awaitingKey ∧ t.waitReg = x ∧ t.keyPrev = s.input.keys ∧
      t.pc = s.pc + 2 ∧ t = { s with mode := t.mode, waitReg := t.waitReg, keyPrev := t.keyPrev, pc := t.pc } ∧
      (∀ r, t.reg r = s.reg r) ∧ SameMemory s t

/-- The poll: with no key down now that was up in the previous sample the wait goes on; otherwise the lowest such key's
index is written to V[wait_reg] and the mode is Running; the sample is latched, pc stays, nothing is fetched
(44_timer_key.md R201, decision D8: notes/assumptions/12.md; the pulse is 0, notes/assumptions/9.md). -/
def Obligations.KeyWaitPolls : Prop :=
  ∀ s : State, s.fault = none → s.mode = .awaitingKey →
    ((∀ k : Fin 16, ¬(s.input.keys.getLsbD k.val = true ∧ s.keyPrev.getLsbD k.val = false)) →
      s.stepEvent = .next { s with keyPrev := s.input.keys, displayUpdated := false }) ∧
    (∀ k : Fin 16, s.input.keys.getLsbD k.val = true → s.keyPrev.getLsbD k.val = false →
      (∀ j : Fin 16, j < k → ¬(s.input.keys.getLsbD j.val = true ∧ s.keyPrev.getLsbD j.val = false)) →
      ∃ t, s.stepEvent = .next t ∧ (t.reg s.waitReg).toNat = k.val ∧ (∀ r, r ≠ s.waitReg → t.reg r = s.reg r) ∧
        t.mode = .running ∧ t.keyPrev = s.input.keys ∧
        t = { s with V := t.V, mode := t.mode, keyPrev := t.keyPrev, displayUpdated := false })

/-! ## Reserved spaces -/

/-- The unrecognised words of families 8, E and F are no-ops that advance pc; Vx is not read (30_encoding.md R81, the
permissive choice D3: notes/assumptions/10.md). -/
def Obligations.UnrecognisedWordsAreNoops : Prop :=
  ∀ (s : State) (x y : Reg) (n : Nibble) (kk : Byte),
    (∃ t, exec (.rsvd8 x y n) s = .next t ∧ t.pc = s.pc + 2 ∧ RegFrame [] s t) ∧
    (∃ t, exec (.rsvdE x kk) s = .next t ∧ t.pc = s.pc + 2 ∧ RegFrame [] s t) ∧
    (∃ t, exec (.rsvdF x kk) s = .next t ∧ t.pc = s.pc + 2 ∧ RegFrame [] s t)

/-- The unrecognised words, written out as 30_encoding.md R81 lists them, are the words that decode to a reserved row;
every reserved arm, and the instruction of every unrecognised word, is `State.unrecognised` at this hardware's switch.
With the switch on that operation raises IllegalOpcode with the word as the recorded value and changes nothing but the
latch; with the switch off it only advances pc. At this hardware's switch, off, a recognised word, 0nnn among them,
raises no IllegalOpcode; what a recognised word does with the switch on is not said (60_exceptions.md R219, R211, decisions D3, D6: notes/assumptions/10.md and 17.md; the record, 4.md and 23.md; the
recognised words with ignored digits, decision D2, 11.md). -/
def Obligations.StrictModeRaisesIllegalOpcode : Prop :=
  ∀ (s : State) (w : Word),
    unrecognisedWord w = reservedRow (decodeWord w) ∧
    (∀ x y n, exec (.rsvd8 x y n) s = .next (s.unrecognised Config.strictOpcodes (encode (.rsvd8 x y n)))) ∧
    (∀ x kk, exec (.rsvdE x kk) s = .next (s.unrecognised Config.strictOpcodes (encode (.rsvdE x kk)))) ∧
    (∀ x kk, exec (.rsvdF x kk) s = .next (s.unrecognised Config.strictOpcodes (encode (.rsvdF x kk)))) ∧
    (unrecognisedWord w = true → exec (decodeWord w) s = .next (s.unrecognised Config.strictOpcodes w)) ∧
    (∀ (t : State) (r : FaultRecord), unrecognisedWord w = false → s.fault = none →
      exec (decodeWord w) s = .next t → t.fault = some r → r.cause ≠ .illegalOpcode) ∧
    s.unrecognised true w = { s with
      fault := some { cause := .illegalOpcode, addr := w.toNat, fpc := s.pc, finstr := w } } ∧
    s.unrecognised false w = { s with pc := s.pc + 2 } ∧
    Cause.illegalOpcode.code = 5

/-! ## The step -/

/-- A step runs the decoded instruction: with no fault latched, in mode Running, when the two bytes at pc decode to i,
the step is the ticks due, then i on the state with the pulse display_updated put to 0, then the lines for the next step
(30_encoding.md R75). The ticks and the lines are the model's schedule, notes/assumptions/1.md and 2.md; that i runs with
pc at its own address is 7.md; that the pulse is 0 until a display instruction completes is the choice of 9.md
(10_state.md R38 (e), decision D16), which R75 does not say. -/
def Obligations.StepRunsDecodedInstruction : Prop :=
  ∀ (s : State) (i : Instr), s.fault = none → s.mode = .running → s.pc.toNat ≤ 4094 →
    decode [s.mem.read s.pc.toNat, s.mem.read (s.pc.toNat + 1)] = .ok (i, []) →
    step s = nextLines (exec i { State.runTicks s.input.ticks s with displayUpdated := false })

/-- While a fault is latched the step event changes nothing: no fetch, no instruction, the same fault
(60_exceptions.md R213, decision D5: notes/assumptions/4.md and 23.md). What this step of the model does change is the
model's choice or the tick event's: DT and ST go down by the ticks due, not below 0, because a step of the model runs the
ticks that the host raises before it (notes/assumptions/2.md; 44_timer_key.md R205, R206, decision D15); the pulse is put
to 0 (10_state.md R38, notes/assumptions/9.md); the lines for the next step are driven (notes/assumptions/1.md). -/
def Obligations.StepWithLatchedFaultDoesNothing : Prop :=
  ∀ (s : State) (r : FaultRecord), s.fault = some r →
    ∃ t, step s = .next t ∧ t.fault = some r ∧
      t.DT.toNat = s.DT.toNat - s.input.ticks ∧ t.ST.toNat = s.ST.toNat - s.input.ticks ∧
      t = { s with DT := t.DT, ST := t.ST, displayUpdated := false, input := t.input, script := t.script, draws := t.draws }

/-- A fetch with pc above 4094 raises OutOfBounds with the lowest address above 4095 and word 0; pc stays,
and nothing else changes by the fetch (30_encoding.md R74, 60_exceptions.md R214; the record is decision D6, the frozen
state D5: notes/assumptions/4.md, 17.md and 23.md). DT and ST go down by the ticks due before the step, not below 0, the
pulse is put to 0 and the next lines are driven, as the model's step does (notes/assumptions/1.md, 2.md and 9.md;
44_timer_key.md R205, R206). -/
def Obligations.FetchAboveMemoryFaults : Prop :=
  ∀ s : State, s.fault = none → s.mode = .running → s.pc.toNat > 4094 →
    ∃ t, step s = .next t ∧
      t.fault = some { cause := .outOfBounds, addr := max s.pc.toNat 4096, fpc := s.pc, finstr := 0 } ∧
      t.DT.toNat = s.DT.toNat - s.input.ticks ∧ t.ST.toNat = s.ST.toNat - s.input.ticks ∧
      t = { s with fault := t.fault, DT := t.DT, ST := t.ST, displayUpdated := false, input := t.input,
                   script := t.script, draws := t.draws }

/-! ## Faults -/

/-- Faults are precise: an instruction that raises one changes nothing but the latch, and the record names the
instruction's address and its word (60_exceptions.md R212, R222, decision D5: notes/assumptions/4.md, 8.md, 23.md). -/
def Obligations.FaultsArePrecise : Prop :=
  ∀ (i : Instr) (s t : State) (r : FaultRecord), s.fault = none → exec i s = .next t → t.fault = some r →
    t = { s with fault := some r } ∧ r.fpc = s.pc ∧ r.finstr = encode i

/-- Which instruction can raise which fault, on which condition and with which value: 2nnn StackOverflow with 16 entries
occupied, 00EE StackUnderflow with none, Fx33, Fx55, Fx65 and Dxyn OutOfBounds when an address they access is above 4095
(for Dxyn of the rows on the screen, when there is one), Ex9E and ExA1 KeyIndexOutOfRange above 15, every other
instruction nothing (60_exceptions.md R214 to R216, R218, R221). The choices it rests on: rejecting an address, D4 and
D20 (notes/assumptions/25.md), the rows read, D12 (20.md), the recorded values, D6 (17.md), the key index, D7 (18.md), the
unrecognised words, D3 (10.md), the fault as a next state, 4.md. -/
def Obligations.OnlyListedInstructionsFault : Prop :=
  ∀ (i : Instr) (s t : State) (r : FaultRecord), s.fault = none → exec i s = .next t → t.fault = some r →
    (∃ nnn, i = .call nnn ∧ r.cause = .stackOverflow ∧ s.sp.val = 16 ∧ r.addr = 16) ∨
    (∃ ign, i = .ret ign ∧ r.cause = .stackUnderflow ∧ s.sp.val = 0 ∧ r.addr = 0) ∨
    (∃ x y n, i = .drw x y n ∧ r.cause = .outOfBounds ∧ 0 < min n.toNat (32 - (s.reg y).toNat % 32) ∧
      s.base + min n.toNat (32 - (s.reg y).toNat % 32) - 1 > 4095 ∧ r.addr = max s.base 4096) ∨
    (∃ x, i = .ldB x ∧ r.cause = .outOfBounds ∧ s.base + 2 > 4095 ∧ r.addr = max s.base 4096) ∨
    (∃ x : Reg, (i = .storeRegs x ∨ i = .loadRegs x) ∧ r.cause = .outOfBounds ∧ s.base + x.val > 4095 ∧
      r.addr = max s.base 4096) ∨
    (∃ x, (i = .skp x ∨ i = .sknp x) ∧ r.cause = .keyIndexOutOfRange ∧ (s.reg x).toNat > 15 ∧ r.addr = (s.reg x).toNat)

/-- Every run of the machine goes on: from any state, any number of steps ends in a next state, never in a fault or a
refusal of the model (60_exceptions.md R210 to R213: a fault is a latch, notes/assumptions/4.md). -/
def Obligations.RunsNeverStop : Prop :=
  ∀ (k : Nat) (s : State), ∃ t : State, runSteps k s = .next t

/-- A core with a latched fault stays stopped: after any number of steps the latch, the registers, the stack, the
memory, the display and the engine state are what they were (60_exceptions.md R213, R223, decision D5:
notes/assumptions/4.md and 23.md). Left free are the timers, which the ticks of each step move (2.md), the pulse (9.md)
and the lines (1.md). -/
def Obligations.FaultedCoreStaysStopped : Prop :=
  ∀ (k : Nat) (s t : State) (r : FaultRecord), s.fault = some r → runSteps k s = .next t →
    t.fault = some r ∧
    t = { s with DT := t.DT, ST := t.ST, displayUpdated := t.displayUpdated, input := t.input, script := t.script,
                 draws := t.draws }

/-! ## Invariants -/

/-- The invariant holds at reset (10_state.md R40, derived there). -/
def Obligations.ResetMeetsTheInvariant : Prop := State.reset.Inv

/-- Every step keeps the invariant: canonical memory inside the 4096 bytes, pc in 0 to 4350, occupied stack entries in 2
to 4096, a latched fault naming the frozen pc (10_state.md R40, derived there; 60_exceptions.md R212, decision D5,
notes/assumptions/23.md). -/
def Obligations.StepKeepsTheInvariant : Prop :=
  ∀ s t : State, s.Inv → step s = .next t → t.Inv

/-- Every event keeps the invariant: reset with any ROM, tick, and step with any inputs (10_state.md R40, derived
there; notes/assumptions/13.md and 24.md). -/
def Obligations.EventsKeepTheInvariant : Prop :=
  ∀ (s t : State) (e : Event), s.Inv → s.onEvent e = .next t → t.Inv

/-! ## Who writes what -/

/-- Only Fx33 and Fx55 change memory and only 00E0 and Dxyn change the display (10_state.md R41, 20_memory.md R66,
derived there); that only 00E0 and Dxyn touch display_updated is the spec's choice of an output, 10_state.md R38 (e) and
decision D16, which the model holds as a field of its own (notes/assumptions/9.md). -/
def Obligations.MemoryAndDisplayWriters : Prop :=
  ∀ (i : Instr) (s t : State), exec i s = .next t →
    ((∀ x, i ≠ .ldB x) → (∀ x, i ≠ .storeRegs x) → t.mem = s.mem) ∧
    ((∀ ign, i ≠ .cls ign) → (∀ x y n, i ≠ .drw x y n) → t.fb = s.fb ∧ t.displayUpdated = s.displayUpdated)

/-- Only 2nnn and 00EE change the stack and sp, only Annn, Fx1E, Fx29 change I, only Fx15 changes DT, only Fx18 changes
ST, only Fx0A changes mode, wait_reg and key_prev; no instruction changes the input lines (10_state.md R41, derived
there). -/
def Obligations.OtherStateWriters : Prop :=
  ∀ (i : Instr) (s t : State), exec i s = .next t →
    ((∀ nnn, i ≠ .call nnn) → (∀ ign, i ≠ .ret ign) → t.stack = s.stack ∧ t.sp = s.sp) ∧
    ((∀ nnn, i ≠ .ldI nnn) → (∀ x, i ≠ .addI x) → (∀ x, i ≠ .ldF x) → t.I = s.I) ∧
    ((∀ x, i ≠ .ldDTVx x) → t.DT = s.DT) ∧ ((∀ x, i ≠ .ldSTVx x) → t.ST = s.ST) ∧
    ((∀ x, i ≠ .ldVxK x) → t.mode = s.mode ∧ t.waitReg = s.waitReg ∧ t.keyPrev = s.keyPrev) ∧
    t.input = s.input ∧ t.script = s.script ∧ t.draws = s.draws

/-- An instruction changes no general register but its destinations: Vx, or V0 to Vx for Fx65, and VF for the six flag
writers (10_state.md R21, R41, derived there). -/
def Obligations.OnlyDestinationRegistersChange : Prop :=
  ∀ (i : Instr) (s t : State) (r : Reg), exec i s = .next t → r ∉ destRegs i → t.reg r = s.reg r

/-- The key vector reaches the machine through Ex9E, ExA1 and Fx0A only and the random byte through Cxkk only: any other
instruction does the same under any other input (60_exceptions.md R227, 30_encoding.md R79). -/
def Obligations.InputsReachOnlyTheirInstructions : Prop :=
  ∀ (i : Instr) (s t : State) (k : Keys) (b : Byte), exec i s = .next t →
    ((∀ x, i ≠ .skp x) → (∀ x, i ≠ .sknp x) → (∀ x, i ≠ .ldVxK x) →
      exec i { s with input := { s.input with keys := k } } = .next { t with input := { s.input with keys := k } }) ∧
    ((∀ x kk, i ≠ .rnd x kk) →
      exec i { s with input := { s.input with rnd := b } } = .next { t with input := { s.input with rnd := b } })

/-! ## Reset -/

/-- reset(ROM) with at most 3584 bytes: every register, timer, stack entry and pixel 0, pc at 0x200, Running, no fault,
and memory holding the ROM at 0x200, the font at FONT_BASE and 0 elsewhere (70_reset_and_hazards.md R251, 10_state.md
R39; the added state's values are decision D14, the font's bytes notes/assumptions/5.md, its base 22.md). That the pulse
display_updated is 0 after reset is the choice of 9.md (10_state.md R38 (e), decision D16), in no reset table. -/
def Obligations.ResetLoadsFontAndRom : Prop :=
  ∀ (s : State) (rom : List Byte), rom.length ≤ 3584 →
    let t := s.resetWith rom
    (∀ r, t.reg r = 0) ∧ t.I = 0 ∧ t.pc = 0x200 ∧ t.sp.val = 0 ∧ (∀ k : Fin 16, t.stack[k.val] = 0) ∧ t.DT = 0 ∧
    t.ST = 0 ∧ (∀ r c, t.fb.pixel r c = false) ∧ t.mode = .running ∧ t.waitReg = 0 ∧ t.keyPrev = 0 ∧ t.fault = none ∧
    t.displayUpdated = false ∧
    ∀ a < 4096, t.mem.read a =
      if 0x200 ≤ a ∧ a < 0x200 + rom.length then rom.getD (a - 0x200) 0
      else if fontBase ≤ a ∧ a < fontBase + 80 then font.getD (a - fontBase) 0 else 0

/-- reset(ROM) with more than 3584 bytes latches RomTooLarge with the length, 0x200 and word 0, loads the font but no
ROM byte, and leaves every other piece of state at its reset value (70_reset_and_hazards.md R253, 10_state.md R39; the
failed load is decision D14, notes/assumptions/24.md, the record D6, 17.md; the font's bytes 5.md, its base 22.md, the
pulse 9.md). -/
def Obligations.ResetRefusesLargeRom : Prop :=
  ∀ (s : State) (rom : List Byte), rom.length > 3584 →
    let t := s.resetWith rom
    t.fault = some { cause := .romTooLarge, addr := rom.length, fpc := 0x200, finstr := 0 } ∧
    (∀ r, t.reg r = 0) ∧ t.I = 0 ∧ t.pc = 0x200 ∧ t.sp.val = 0 ∧ (∀ k : Fin 16, t.stack[k.val] = 0) ∧ t.DT = 0 ∧
    t.ST = 0 ∧ (∀ r c, t.fb.pixel r c = false) ∧ t.mode = .running ∧ t.waitReg = 0 ∧ t.keyPrev = 0 ∧
    t.displayUpdated = false ∧
    ∀ a < 4096, t.mem.read a = if fontBase ≤ a ∧ a < fontBase + 80 then font.getD (a - fontBase) 0 else 0

/-- The reset sequence with a font base above 4016 latches OutOfBounds at 4096 and writes no font byte and no ROM byte
(70_reset_and_hazards.md R251, R254, derived there; notes/assumptions/22.md and 24.md). -/
def Obligations.ResetRefusesFontBaseAboveMemory : Prop :=
  ∀ (s : State) (base : Nat) (glyphs rom : List Byte), base + 80 > 4096 →
    let t := s.resetSequence base glyphs rom
    t.fault = some { cause := .outOfBounds, addr := 4096, fpc := 0x200, finstr := 0 } ∧ t.pc = 0x200 ∧
    ∀ a, t.mem.read a = 0

/-- The state after reset is what the reset sequence makes of itself with the empty ROM (70_reset_and_hazards.md R251;
the input fields are the model's, notes/assumptions/3.md and 13.md, the pulse 9.md). -/
def Obligations.ResetStateIsResetOfEmptyRom : Prop :=
  State.reset.resetWith [] = State.reset

/-- The first fetch after reset reads the first two bytes of the ROM, the first in the high half (70_reset_and_hazards.md
R252, 20_memory.md R54). -/
def Obligations.FirstFetchReadsRomStart : Prop :=
  ∀ (s : State) (hi lo : Byte) (rest : List Byte), rest.length ≤ 3582 →
    (s.resetWith (hi :: lo :: rest)).fetchWord = .ok (hi ++ lo)

/-- A word placed at the fetch address is the instruction the next step runs, after the ticks due and with the pulse
display_updated put to 0, and before the lines for the next step. The placing is the model's stand-in for a load from
outside, notes/assumptions/13.md and 19.md; the lines are 1.md, the ticks 2.md, the pulse 9.md (10_state.md R38 (e),
decision D16), the pc of the instruction 7.md. -/
def Obligations.PlacedWordIsRunNext : Prop :=
  ∀ (s : State) (w : Word), s.mem.wf = true → s.pc.toNat ≤ 4094 →
    step (s.withFetchWord 16 w.toNat) =
      nextLines (exec (decodeWord w)
        { State.runTicks s.input.ticks (s.withFetchWord 16 w.toNat) with displayUpdated := false })
end

