-- ==== Sys2Proof/Laws/Decode.lean ====
section
/-! SUPPORT. The fields of an encoded word, and the words of bytes. -/

namespace Sys2Proof

@[simp] theorem toReg_ofReg (x : Reg) : toReg (ofReg x) = x := rfl

@[simp] theorem ofReg_toReg (d : Nibble) : ofReg (toReg d) = d := rfl

/-- The fields of a word of format XYN. -/
theorem fieldsOf_wordXYN (op x y n : Nibble) :
    fieldsOf (wordXYN op x y n) = { op := op, x := x, y := y, n := n, kk := y ++ n, nnn := x ++ y ++ n } := by
  simp only [fieldsOf, wordXYN, Fields.mk.injEq]
  refine ⟨?_, ?_, ?_, ?_, ?_, ?_⟩ <;>
    (apply BitVec.eq_of_getLsbD_eq; intro i hi; simp only [BitVec.getLsbD_extractLsb', BitVec.getLsbD_append]; grind)

/-- The fields of a word of format XKK. -/
theorem fieldsOf_wordXKK (op x : Nibble) (kk : Byte) :
    fieldsOf (wordXKK op x kk) =
      { op := op, x := x, y := kk.extractLsb' 4 4, n := kk.extractLsb' 0 4, kk := kk, nnn := x ++ kk } := by
  simp only [fieldsOf, wordXKK, Fields.mk.injEq]
  refine ⟨?_, ?_, ?_, ?_, ?_, ?_⟩ <;>
    (apply BitVec.eq_of_getLsbD_eq; intro i hi; simp only [BitVec.getLsbD_extractLsb', BitVec.getLsbD_append]; grind)

/-- The fields of a word of format NNN. -/
theorem fieldsOf_wordNNN (op : Nibble) (nnn : Imm12) :
    fieldsOf (wordNNN op nnn) =
      { op := op, x := nnn.extractLsb' 8 4, y := nnn.extractLsb' 4 4, n := nnn.extractLsb' 0 4,
        kk := nnn.extractLsb' 0 8, nnn := nnn } := by
  simp only [fieldsOf, wordNNN, Fields.mk.injEq]
  refine ⟨?_, ?_, ?_, ?_, ?_, ?_⟩ <;>
    (apply BitVec.eq_of_getLsbD_eq; intro i hi; simp only [BitVec.getLsbD_extractLsb', BitVec.getLsbD_append]; grind)

/-- A word is its fields op, x, y, n. -/
theorem wordXYN_fieldsOf (w : Word) : wordXYN (fieldsOf w).op (fieldsOf w).x (fieldsOf w).y (fieldsOf w).n = w := by
  apply BitVec.eq_of_getLsbD_eq
  intro i hi
  simp only [wordXYN, fieldsOf, BitVec.getLsbD_append, BitVec.getLsbD_extractLsb']
  grind

/-- A word is its fields op, x, kk. -/
theorem wordXKK_fieldsOf (w : Word) : wordXKK (fieldsOf w).op (fieldsOf w).x (fieldsOf w).kk = w := by
  apply BitVec.eq_of_getLsbD_eq
  intro i hi
  simp only [wordXKK, fieldsOf, BitVec.getLsbD_append, BitVec.getLsbD_extractLsb']
  grind

/-- A word is its fields op, nnn. -/
theorem wordNNN_fieldsOf (w : Word) : wordNNN (fieldsOf w).op (fieldsOf w).nnn = w := by
  apply BitVec.eq_of_getLsbD_eq
  intro i hi
  simp only [wordNNN, fieldsOf, BitVec.getLsbD_append, BitVec.getLsbD_extractLsb']
  grind

/-- The bytes of a word combine to the word. -/
theorem wordOfBytes_bytesOfWord (w : Word) : wordOfBytes (w.extractLsb' 8 8) (w.extractLsb' 0 8) = w := by
  apply BitVec.eq_of_getLsbD_eq
  intro i hi
  simp only [wordOfBytes, BitVec.getLsbD_append, BitVec.getLsbD_extractLsb']
  grind

/-- Decoding the bytes of a word is decoding the word. -/
theorem decode_bytesOfWord (w : Word) (rest : List Byte) : decode (bytesOfWord w ++ rest) = .ok (decodeWord w, rest) := by
  simp only [bytesOfWord, List.cons_append, List.nil_append, decode, wordOfBytes_bytesOfWord]

/-! The bits of an encoded word under the masks of the opcode map. -/

theorem wordNNN_mask (op : Nibble) (nnn : Imm12) : wordNNN op nnn &&& 0xF000 = op ++ (0 : Imm12) := by
  apply BitVec.eq_of_getLsbD_eq
  intro i hi
  simp only [wordNNN, BitVec.getLsbD_and, BitVec.getLsbD_append]
  interval_cases i <;> simp

theorem wordXKK_mask (op x : Nibble) (kk : Byte) : wordXKK op x kk &&& 0xF000 = op ++ (0 : Imm12) := by
  apply BitVec.eq_of_getLsbD_eq
  intro i hi
  simp only [wordXKK, BitVec.getLsbD_and, BitVec.getLsbD_append]
  interval_cases i <;> simp

theorem wordXKK_maskKK (op x : Nibble) (kk : Byte) : wordXKK op x kk &&& 0xF0FF = op ++ (0 : Nibble) ++ kk := by
  apply BitVec.eq_of_getLsbD_eq
  intro i hi
  simp only [wordXKK, BitVec.getLsbD_and, BitVec.getLsbD_append]
  interval_cases i <;> simp

theorem wordXYN_mask (op x y n : Nibble) : wordXYN op x y n &&& 0xF000 = op ++ (0 : Imm12) := by
  apply BitVec.eq_of_getLsbD_eq
  intro i hi
  simp only [wordXYN, BitVec.getLsbD_and, BitVec.getLsbD_append]
  interval_cases i <;> simp

theorem wordXYN_maskN (op x y n : Nibble) : wordXYN op x y n &&& 0xF00F = op ++ (0 : Byte) ++ n := by
  apply BitVec.eq_of_getLsbD_eq
  intro i hi
  simp only [wordXYN, BitVec.getLsbD_and, BitVec.getLsbD_append]
  interval_cases i <;> simp

end Sys2Proof
end

