-- ==== Sys2Proof/Laws/State.lean ====
section
/-! SUPPORT. One lemma per field per named update of the state, so that no proof unfolds a record update. -/

namespace Sys2Proof.Machine

@[simp] theorem reg_mk_V (s : State) (v : Vector Byte 16) (x : Reg) : ({ s with V := v } : State).reg x = v[x.val] := rfl

/-! ### setReg -/

@[simp] theorem setReg_V (s : State) (x : Reg) (v : Byte) : (s.setReg x v).V = s.V.set x.val v := rfl
@[simp] theorem setReg_I (s : State) (x : Reg) (v : Byte) : (s.setReg x v).I = s.I := rfl
@[simp] theorem setReg_pc (s : State) (x : Reg) (v : Byte) : (s.setReg x v).pc = s.pc := rfl
@[simp] theorem setReg_sp (s : State) (x : Reg) (v : Byte) : (s.setReg x v).sp = s.sp := rfl
@[simp] theorem setReg_stack (s : State) (x : Reg) (v : Byte) : (s.setReg x v).stack = s.stack := rfl
@[simp] theorem setReg_DT (s : State) (x : Reg) (v : Byte) : (s.setReg x v).DT = s.DT := rfl
@[simp] theorem setReg_ST (s : State) (x : Reg) (v : Byte) : (s.setReg x v).ST = s.ST := rfl
@[simp] theorem setReg_fb (s : State) (x : Reg) (v : Byte) : (s.setReg x v).fb = s.fb := rfl
@[simp] theorem setReg_mem (s : State) (x : Reg) (v : Byte) : (s.setReg x v).mem = s.mem := rfl
@[simp] theorem setReg_mode (s : State) (x : Reg) (v : Byte) : (s.setReg x v).mode = s.mode := rfl
@[simp] theorem setReg_waitReg (s : State) (x : Reg) (v : Byte) : (s.setReg x v).waitReg = s.waitReg := rfl
@[simp] theorem setReg_keyPrev (s : State) (x : Reg) (v : Byte) : (s.setReg x v).keyPrev = s.keyPrev := rfl
@[simp] theorem setReg_fault (s : State) (x : Reg) (v : Byte) : (s.setReg x v).fault = s.fault := rfl
@[simp] theorem setReg_displayUpdated (s : State) (x : Reg) (v : Byte) : (s.setReg x v).displayUpdated = s.displayUpdated := rfl
@[simp] theorem setReg_input (s : State) (x : Reg) (v : Byte) : (s.setReg x v).input = s.input := rfl
@[simp] theorem setReg_script (s : State) (x : Reg) (v : Byte) : (s.setReg x v).script = s.script := rfl
@[simp] theorem setReg_draws (s : State) (x : Reg) (v : Byte) : (s.setReg x v).draws = s.draws := rfl

/-! ### advancePc -/

@[simp] theorem advancePc_V (s : State) : (s.advancePc).V = s.V := rfl
@[simp] theorem advancePc_I (s : State) : (s.advancePc).I = s.I := rfl
@[simp] theorem advancePc_pc (s : State) : (s.advancePc).pc = s.pc + 2 := rfl
@[simp] theorem advancePc_sp (s : State) : (s.advancePc).sp = s.sp := rfl
@[simp] theorem advancePc_stack (s : State) : (s.advancePc).stack = s.stack := rfl
@[simp] theorem advancePc_DT (s : State) : (s.advancePc).DT = s.DT := rfl
@[simp] theorem advancePc_ST (s : State) : (s.advancePc).ST = s.ST := rfl
@[simp] theorem advancePc_fb (s : State) : (s.advancePc).fb = s.fb := rfl
@[simp] theorem advancePc_mem (s : State) : (s.advancePc).mem = s.mem := rfl
@[simp] theorem advancePc_mode (s : State) : (s.advancePc).mode = s.mode := rfl
@[simp] theorem advancePc_waitReg (s : State) : (s.advancePc).waitReg = s.waitReg := rfl
@[simp] theorem advancePc_keyPrev (s : State) : (s.advancePc).keyPrev = s.keyPrev := rfl
@[simp] theorem advancePc_fault (s : State) : (s.advancePc).fault = s.fault := rfl
@[simp] theorem advancePc_displayUpdated (s : State) : (s.advancePc).displayUpdated = s.displayUpdated := rfl
@[simp] theorem advancePc_input (s : State) : (s.advancePc).input = s.input := rfl
@[simp] theorem advancePc_script (s : State) : (s.advancePc).script = s.script := rfl
@[simp] theorem advancePc_draws (s : State) : (s.advancePc).draws = s.draws := rfl

/-! ### jumpTo -/

@[simp] theorem jumpTo_V (s : State) (a : Word) : (s.jumpTo a).V = s.V := rfl
@[simp] theorem jumpTo_I (s : State) (a : Word) : (s.jumpTo a).I = s.I := rfl
@[simp] theorem jumpTo_pc (s : State) (a : Word) : (s.jumpTo a).pc = a := rfl
@[simp] theorem jumpTo_sp (s : State) (a : Word) : (s.jumpTo a).sp = s.sp := rfl
@[simp] theorem jumpTo_stack (s : State) (a : Word) : (s.jumpTo a).stack = s.stack := rfl
@[simp] theorem jumpTo_DT (s : State) (a : Word) : (s.jumpTo a).DT = s.DT := rfl
@[simp] theorem jumpTo_ST (s : State) (a : Word) : (s.jumpTo a).ST = s.ST := rfl
@[simp] theorem jumpTo_fb (s : State) (a : Word) : (s.jumpTo a).fb = s.fb := rfl
@[simp] theorem jumpTo_mem (s : State) (a : Word) : (s.jumpTo a).mem = s.mem := rfl
@[simp] theorem jumpTo_mode (s : State) (a : Word) : (s.jumpTo a).mode = s.mode := rfl
@[simp] theorem jumpTo_waitReg (s : State) (a : Word) : (s.jumpTo a).waitReg = s.waitReg := rfl
@[simp] theorem jumpTo_keyPrev (s : State) (a : Word) : (s.jumpTo a).keyPrev = s.keyPrev := rfl
@[simp] theorem jumpTo_fault (s : State) (a : Word) : (s.jumpTo a).fault = s.fault := rfl
@[simp] theorem jumpTo_displayUpdated (s : State) (a : Word) : (s.jumpTo a).displayUpdated = s.displayUpdated := rfl
@[simp] theorem jumpTo_input (s : State) (a : Word) : (s.jumpTo a).input = s.input := rfl
@[simp] theorem jumpTo_script (s : State) (a : Word) : (s.jumpTo a).script = s.script := rfl
@[simp] theorem jumpTo_draws (s : State) (a : Word) : (s.jumpTo a).draws = s.draws := rfl

/-! ### raise -/

@[simp] theorem raise_V (s : State) (c : Cause) (a : Nat) (w : Word) : (s.raise c a w).V = s.V := rfl
@[simp] theorem raise_I (s : State) (c : Cause) (a : Nat) (w : Word) : (s.raise c a w).I = s.I := rfl
@[simp] theorem raise_pc (s : State) (c : Cause) (a : Nat) (w : Word) : (s.raise c a w).pc = s.pc := rfl
@[simp] theorem raise_sp (s : State) (c : Cause) (a : Nat) (w : Word) : (s.raise c a w).sp = s.sp := rfl
@[simp] theorem raise_stack (s : State) (c : Cause) (a : Nat) (w : Word) : (s.raise c a w).stack = s.stack := rfl
@[simp] theorem raise_DT (s : State) (c : Cause) (a : Nat) (w : Word) : (s.raise c a w).DT = s.DT := rfl
@[simp] theorem raise_ST (s : State) (c : Cause) (a : Nat) (w : Word) : (s.raise c a w).ST = s.ST := rfl
@[simp] theorem raise_fb (s : State) (c : Cause) (a : Nat) (w : Word) : (s.raise c a w).fb = s.fb := rfl
@[simp] theorem raise_mem (s : State) (c : Cause) (a : Nat) (w : Word) : (s.raise c a w).mem = s.mem := rfl
@[simp] theorem raise_mode (s : State) (c : Cause) (a : Nat) (w : Word) : (s.raise c a w).mode = s.mode := rfl
@[simp] theorem raise_waitReg (s : State) (c : Cause) (a : Nat) (w : Word) : (s.raise c a w).waitReg = s.waitReg := rfl
@[simp] theorem raise_keyPrev (s : State) (c : Cause) (a : Nat) (w : Word) : (s.raise c a w).keyPrev = s.keyPrev := rfl
@[simp] theorem raise_fault (s : State) (c : Cause) (a : Nat) (w : Word) : (s.raise c a w).fault = some { cause := c, addr := a, fpc := s.pc, finstr := w } := rfl
@[simp] theorem raise_displayUpdated (s : State) (c : Cause) (a : Nat) (w : Word) : (s.raise c a w).displayUpdated = s.displayUpdated := rfl
@[simp] theorem raise_input (s : State) (c : Cause) (a : Nat) (w : Word) : (s.raise c a w).input = s.input := rfl
@[simp] theorem raise_script (s : State) (c : Cause) (a : Nat) (w : Word) : (s.raise c a w).script = s.script := rfl
@[simp] theorem raise_draws (s : State) (c : Cause) (a : Nat) (w : Word) : (s.raise c a w).draws = s.draws := rfl

/-! ### pulseDisplay -/

@[simp] theorem pulseDisplay_V (s : State) : (s.pulseDisplay).V = s.V := rfl
@[simp] theorem pulseDisplay_I (s : State) : (s.pulseDisplay).I = s.I := rfl
@[simp] theorem pulseDisplay_pc (s : State) : (s.pulseDisplay).pc = s.pc := rfl
@[simp] theorem pulseDisplay_sp (s : State) : (s.pulseDisplay).sp = s.sp := rfl
@[simp] theorem pulseDisplay_stack (s : State) : (s.pulseDisplay).stack = s.stack := rfl
@[simp] theorem pulseDisplay_DT (s : State) : (s.pulseDisplay).DT = s.DT := rfl
@[simp] theorem pulseDisplay_ST (s : State) : (s.pulseDisplay).ST = s.ST := rfl
@[simp] theorem pulseDisplay_fb (s : State) : (s.pulseDisplay).fb = s.fb := rfl
@[simp] theorem pulseDisplay_mem (s : State) : (s.pulseDisplay).mem = s.mem := rfl
@[simp] theorem pulseDisplay_mode (s : State) : (s.pulseDisplay).mode = s.mode := rfl
@[simp] theorem pulseDisplay_waitReg (s : State) : (s.pulseDisplay).waitReg = s.waitReg := rfl
@[simp] theorem pulseDisplay_keyPrev (s : State) : (s.pulseDisplay).keyPrev = s.keyPrev := rfl
@[simp] theorem pulseDisplay_fault (s : State) : (s.pulseDisplay).fault = s.fault := rfl
@[simp] theorem pulseDisplay_displayUpdated (s : State) : (s.pulseDisplay).displayUpdated = true := rfl
@[simp] theorem pulseDisplay_input (s : State) : (s.pulseDisplay).input = s.input := rfl
@[simp] theorem pulseDisplay_script (s : State) : (s.pulseDisplay).script = s.script := rfl
@[simp] theorem pulseDisplay_draws (s : State) : (s.pulseDisplay).draws = s.draws := rfl

/-! ### tick -/

@[simp] theorem tick_V (s : State) : (s.tick).V = s.V := rfl
@[simp] theorem tick_I (s : State) : (s.tick).I = s.I := rfl
@[simp] theorem tick_pc (s : State) : (s.tick).pc = s.pc := rfl
@[simp] theorem tick_sp (s : State) : (s.tick).sp = s.sp := rfl
@[simp] theorem tick_stack (s : State) : (s.tick).stack = s.stack := rfl
@[simp] theorem tick_DT (s : State) : (s.tick).DT = tickTimer s.DT := rfl
@[simp] theorem tick_ST (s : State) : (s.tick).ST = tickTimer s.ST := rfl
@[simp] theorem tick_fb (s : State) : (s.tick).fb = s.fb := rfl
@[simp] theorem tick_mem (s : State) : (s.tick).mem = s.mem := rfl
@[simp] theorem tick_mode (s : State) : (s.tick).mode = s.mode := rfl
@[simp] theorem tick_waitReg (s : State) : (s.tick).waitReg = s.waitReg := rfl
@[simp] theorem tick_keyPrev (s : State) : (s.tick).keyPrev = s.keyPrev := rfl
@[simp] theorem tick_fault (s : State) : (s.tick).fault = s.fault := rfl
@[simp] theorem tick_displayUpdated (s : State) : (s.tick).displayUpdated = false := rfl
@[simp] theorem tick_input (s : State) : (s.tick).input = s.input := rfl
@[simp] theorem tick_script (s : State) : (s.tick).script = s.script := rfl
@[simp] theorem tick_draws (s : State) : (s.tick).draws = s.draws := rfl

/-! ### runTicks -/

@[simp] theorem runTicks_V (s : State) (n : Nat) : (State.runTicks n s).V = s.V := rfl
@[simp] theorem runTicks_I (s : State) (n : Nat) : (State.runTicks n s).I = s.I := rfl
@[simp] theorem runTicks_pc (s : State) (n : Nat) : (State.runTicks n s).pc = s.pc := rfl
@[simp] theorem runTicks_sp (s : State) (n : Nat) : (State.runTicks n s).sp = s.sp := rfl
@[simp] theorem runTicks_stack (s : State) (n : Nat) : (State.runTicks n s).stack = s.stack := rfl
@[simp] theorem runTicks_DT (s : State) (n : Nat) : (State.runTicks n s).DT = countdown n s.DT := rfl
@[simp] theorem runTicks_ST (s : State) (n : Nat) : (State.runTicks n s).ST = countdown n s.ST := rfl
@[simp] theorem runTicks_fb (s : State) (n : Nat) : (State.runTicks n s).fb = s.fb := rfl
@[simp] theorem runTicks_mem (s : State) (n : Nat) : (State.runTicks n s).mem = s.mem := rfl
@[simp] theorem runTicks_mode (s : State) (n : Nat) : (State.runTicks n s).mode = s.mode := rfl
@[simp] theorem runTicks_waitReg (s : State) (n : Nat) : (State.runTicks n s).waitReg = s.waitReg := rfl
@[simp] theorem runTicks_keyPrev (s : State) (n : Nat) : (State.runTicks n s).keyPrev = s.keyPrev := rfl
@[simp] theorem runTicks_fault (s : State) (n : Nat) : (State.runTicks n s).fault = s.fault := rfl
@[simp] theorem runTicks_displayUpdated (s : State) (n : Nat) : (State.runTicks n s).displayUpdated = (s.displayUpdated && n == 0) := rfl
@[simp] theorem runTicks_input (s : State) (n : Nat) : (State.runTicks n s).input = s.input := rfl
@[simp] theorem runTicks_script (s : State) (n : Nat) : (State.runTicks n s).script = s.script := rfl
@[simp] theorem runTicks_draws (s : State) (n : Nat) : (State.runTicks n s).draws = s.draws := rfl

/-! ### skipIf, nextInput, pollKeys: what they leave -/

@[simp] theorem skipIf_V (c : Bool) (s : State) : (State.skipIf c s).V = s.V := by cases c <;> rfl
@[simp] theorem skipIf_I (c : Bool) (s : State) : (State.skipIf c s).I = s.I := by cases c <;> rfl
@[simp] theorem skipIf_sp (c : Bool) (s : State) : (State.skipIf c s).sp = s.sp := by cases c <;> rfl
@[simp] theorem skipIf_stack (c : Bool) (s : State) : (State.skipIf c s).stack = s.stack := by cases c <;> rfl
@[simp] theorem skipIf_DT (c : Bool) (s : State) : (State.skipIf c s).DT = s.DT := by cases c <;> rfl
@[simp] theorem skipIf_ST (c : Bool) (s : State) : (State.skipIf c s).ST = s.ST := by cases c <;> rfl
@[simp] theorem skipIf_fb (c : Bool) (s : State) : (State.skipIf c s).fb = s.fb := by cases c <;> rfl
@[simp] theorem skipIf_mem (c : Bool) (s : State) : (State.skipIf c s).mem = s.mem := by cases c <;> rfl
@[simp] theorem skipIf_mode (c : Bool) (s : State) : (State.skipIf c s).mode = s.mode := by cases c <;> rfl
@[simp] theorem skipIf_waitReg (c : Bool) (s : State) : (State.skipIf c s).waitReg = s.waitReg := by cases c <;> rfl
@[simp] theorem skipIf_keyPrev (c : Bool) (s : State) : (State.skipIf c s).keyPrev = s.keyPrev := by cases c <;> rfl
@[simp] theorem skipIf_fault (c : Bool) (s : State) : (State.skipIf c s).fault = s.fault := by cases c <;> rfl
@[simp] theorem skipIf_displayUpdated (c : Bool) (s : State) : (State.skipIf c s).displayUpdated = s.displayUpdated := by cases c <;> rfl
@[simp] theorem skipIf_input (c : Bool) (s : State) : (State.skipIf c s).input = s.input := by cases c <;> rfl
@[simp] theorem skipIf_script (c : Bool) (s : State) : (State.skipIf c s).script = s.script := by cases c <;> rfl
@[simp] theorem skipIf_draws (c : Bool) (s : State) : (State.skipIf c s).draws = s.draws := by cases c <;> rfl
@[simp] theorem skipIf_pc (c : Bool) (s : State) : (State.skipIf c s).pc = if c then s.pc + 2 + 2 else s.pc + 2 := by cases c <;> rfl

@[simp] theorem nextInput_V (s : State) : s.nextInput.V = s.V := by unfold State.nextInput; split <;> rfl
@[simp] theorem nextInput_I (s : State) : s.nextInput.I = s.I := by unfold State.nextInput; split <;> rfl
@[simp] theorem nextInput_pc (s : State) : s.nextInput.pc = s.pc := by unfold State.nextInput; split <;> rfl
@[simp] theorem nextInput_sp (s : State) : s.nextInput.sp = s.sp := by unfold State.nextInput; split <;> rfl
@[simp] theorem nextInput_stack (s : State) : s.nextInput.stack = s.stack := by unfold State.nextInput; split <;> rfl
@[simp] theorem nextInput_DT (s : State) : s.nextInput.DT = s.DT := by unfold State.nextInput; split <;> rfl
@[simp] theorem nextInput_ST (s : State) : s.nextInput.ST = s.ST := by unfold State.nextInput; split <;> rfl
@[simp] theorem nextInput_fb (s : State) : s.nextInput.fb = s.fb := by unfold State.nextInput; split <;> rfl
@[simp] theorem nextInput_mem (s : State) : s.nextInput.mem = s.mem := by unfold State.nextInput; split <;> rfl
@[simp] theorem nextInput_mode (s : State) : s.nextInput.mode = s.mode := by unfold State.nextInput; split <;> rfl
@[simp] theorem nextInput_waitReg (s : State) : s.nextInput.waitReg = s.waitReg := by unfold State.nextInput; split <;> rfl
@[simp] theorem nextInput_keyPrev (s : State) : s.nextInput.keyPrev = s.keyPrev := by unfold State.nextInput; split <;> rfl
@[simp] theorem nextInput_fault (s : State) : s.nextInput.fault = s.fault := by unfold State.nextInput; split <;> rfl
@[simp] theorem nextInput_displayUpdated (s : State) : s.nextInput.displayUpdated = s.displayUpdated := by unfold State.nextInput; split <;> rfl

@[simp] theorem pollKeys_I (s : State) : s.pollKeys.I = s.I := by unfold State.pollKeys; split <;> rfl
@[simp] theorem pollKeys_pc (s : State) : s.pollKeys.pc = s.pc := by unfold State.pollKeys; split <;> rfl
@[simp] theorem pollKeys_sp (s : State) : s.pollKeys.sp = s.sp := by unfold State.pollKeys; split <;> rfl
@[simp] theorem pollKeys_stack (s : State) : s.pollKeys.stack = s.stack := by unfold State.pollKeys; split <;> rfl
@[simp] theorem pollKeys_DT (s : State) : s.pollKeys.DT = s.DT := by unfold State.pollKeys; split <;> rfl
@[simp] theorem pollKeys_ST (s : State) : s.pollKeys.ST = s.ST := by unfold State.pollKeys; split <;> rfl
@[simp] theorem pollKeys_fb (s : State) : s.pollKeys.fb = s.fb := by unfold State.pollKeys; split <;> rfl
@[simp] theorem pollKeys_mem (s : State) : s.pollKeys.mem = s.mem := by unfold State.pollKeys; split <;> rfl
@[simp] theorem pollKeys_waitReg (s : State) : s.pollKeys.waitReg = s.waitReg := by unfold State.pollKeys; split <;> rfl
@[simp] theorem pollKeys_fault (s : State) : s.pollKeys.fault = s.fault := by unfold State.pollKeys; split <;> rfl
@[simp] theorem pollKeys_displayUpdated (s : State) : s.pollKeys.displayUpdated = s.displayUpdated := by unfold State.pollKeys; split <;> rfl
@[simp] theorem pollKeys_input (s : State) : s.pollKeys.input = s.input := by unfold State.pollKeys; split <;> rfl
@[simp] theorem pollKeys_script (s : State) : s.pollKeys.script = s.script := by unfold State.pollKeys; split <;> rfl
@[simp] theorem pollKeys_draws (s : State) : s.pollKeys.draws = s.draws := by unfold State.pollKeys; split <;> rfl
@[simp] theorem pollKeys_keyPrev (s : State) : s.pollKeys.keyPrev = s.input.keys := by unfold State.pollKeys; split <;> rfl

end Sys2Proof.Machine
end

