-- ==== Sys2Proof/Laws/Ops.lean ====
section
/-! SUPPORT. What each shared operation does, said once: registers, flags, stack, memory, display, timers. -/

namespace Sys2Proof.Machine

/-! ## Registers -/

theorem reg_setReg (s : State) (x y : Reg) (v : Byte) :
    (s.setReg x v).reg y = if y = x then v else s.reg y := by
  simp only [State.reg, setReg_V, Vector.getElem_set, Fin.ext_iff, eq_comm]

@[simp] theorem reg_setReg_self (s : State) (x : Reg) (v : Byte) : (s.setReg x v).reg x = v := by
  simp [reg_setReg]

theorem reg_setReg_ne (s : State) {x y : Reg} (h : y ≠ x) (v : Byte) : (s.setReg x v).reg y = s.reg y := by
  simp [reg_setReg, h]

/-- Reading a register looks at V only. -/
theorem reg_congr {s t : State} (h : t.V = s.V) (x : Reg) : t.reg x = s.reg x := by simp [State.reg, h]

@[simp] theorem reg_advancePc (s : State) (x : Reg) : s.advancePc.reg x = s.reg x := rfl

@[simp] theorem reg_jumpTo (s : State) (a : Word) (x : Reg) : (s.jumpTo a).reg x = s.reg x := rfl

@[simp] theorem reg_raise (s : State) (c : Cause) (a : Nat) (w : Word) (x : Reg) : (s.raise c a w).reg x = s.reg x := rfl

@[simp] theorem reg_pulseDisplay (s : State) (x : Reg) : s.pulseDisplay.reg x = s.reg x := rfl

@[simp] theorem reg_skipIf (c : Bool) (s : State) (x : Reg) : (State.skipIf c s).reg x = s.reg x := by cases c <;> rfl

/-- The flag is the last write: VF ends as the flag even when it is also the destination. -/
theorem reg_writeFlagged (s : State) (x y : Reg) (v : Byte) (f : Bool) :
    (s.writeFlagged x v f).reg y = if y = regVF then flagByte f else if y = x then v else s.reg y := by
  simp only [State.writeFlagged, reg_setReg]

/-- A flag-writing instruction writes registers only. -/
theorem writeFlagged_frame (s : State) (x : Reg) (v : Byte) (f : Bool) :
    s.writeFlagged x v f = { s with V := (s.writeFlagged x v f).V } := rfl

theorem skipIf_eq (c : Bool) (s : State) : State.skipIf c s = { s with pc := if c then s.pc + 4 else s.pc + 2 } := by
  cases c
  · rfl
  · simp only [State.skipIf, State.advancePc, if_true, BitVec.add_assoc]; rfl

/-! ## Flags -/

theorem sumByte_toNat (a b : Byte) : (sumByte a b).toNat = (a.toNat + b.toNat) % 256 := by
  simp [sumByte]

theorem diffByte_eq (a b : Byte) : diffByte a b = a - b := by
  apply BitVec.eq_of_toNat_eq
  simp only [diffByte, BitVec.toNat_ofInt, BitVec.toNat_sub]
  omega

theorem shrByte_toNat (b : Byte) : (shrByte b).toNat = b.toNat / 2 := by
  simp [shrByte, Nat.shiftRight_eq_div_pow]

theorem shlByte_toNat (b : Byte) : (shlByte b).toNat = 2 * b.toNat % 256 := by
  simp [shlByte, Nat.shiftLeft_eq, Nat.mul_comm]

/-! ## Stack -/

theorem push?_some {s t : State} {a : Word} (h : s.push? a = some t) :
    s.sp.val < 16 ∧ t.sp.val = s.sp.val + 1 ∧ t = { s with stack := s.stack.setIfInBounds s.sp.val a, sp := t.sp } := by
  unfold State.push? at h
  split at h
  · next hlt =>
    obtain rfl := Option.some.inj h
    refine ⟨hlt, rfl, ?_⟩
    simp [Vector.setIfInBounds, Vector.set, Array.setIfInBounds, hlt]
  · cases h

theorem push?_none {s : State} {a : Word} (h : s.push? a = none) : s.sp.val = 16 := by
  unfold State.push? at h
  split at h
  · cases h
  · omega

theorem pop?_some {s t : State} {a : Word} (h : s.pop? = some (a, t)) :
    0 < s.sp.val ∧ t.sp.val = s.sp.val - 1 ∧ s.stack[s.sp.val - 1]? = some a ∧ t = { s with sp := t.sp } := by
  unfold State.pop? at h
  split at h
  · next hlt =>
    obtain ⟨rfl, rfl⟩ := Prod.mk.inj (Option.some.inj h)
    exact ⟨hlt, rfl, by simp, rfl⟩
  · cases h

theorem pop?_none {s : State} (h : s.pop? = none) : s.sp.val = 0 := by
  unfold State.pop? at h
  split at h
  · cases h
  · omega

/-! ## Memory -/

theorem read_cell (a : Nat) (v : Byte) (m : Memory) (b : Nat) :
    Memory.read (Memory.cell a v ++ m) b = if b = a then (if v = unlistedByte a then m.read a else v) else m.read b := by
  unfold Memory.cell
  by_cases h : v = unlistedByte a
  · by_cases hb : b = a <;> simp [h, hb]
  · by_cases hb : b = a
    · simp [h, hb, Memory.read]
    · simp [h, hb, Memory.read, Ne.symm hb]

theorem wfFrom_mono {lo lo' : Nat} {m : Memory} (h : Memory.wfFrom lo m = true) (hle : lo' ≤ lo) :
    Memory.wfFrom lo' m = true := by
  cases m with
  | nil => rfl
  | cons c m =>
    obtain ⟨a, b⟩ := c
    simp only [Memory.wfFrom, Bool.and_eq_true, decide_eq_true_eq] at h ⊢
    exact ⟨⟨⟨by omega, h.1.1.2⟩, h.1.2⟩, h.2⟩

/-- Below its least listed address a memory reads as the reset image. -/
theorem read_below {lo a : Nat} {m : Memory} (h : Memory.wfFrom lo m = true) (ha : a < lo) :
    m.read a = unlistedByte a := by
  induction m generalizing lo with
  | nil => rfl
  | cons c m ih =>
    obtain ⟨k, b⟩ := c
    simp only [Memory.wfFrom, Bool.and_eq_true, decide_eq_true_eq] at h
    simp only [Memory.read]
    rw [if_neg (by omega)]
    exact ih h.2 (by omega)

/-- Read after write. -/
theorem read_write {lo : Nat} {m : Memory} (h : Memory.wfFrom lo m = true) (a : Nat) (v : Byte) (b : Nat) :
    (m.write a v).read b = if b = a then v else m.read b := by
  induction m generalizing lo with
  | nil =>
    have := read_cell a v [] b
    simp only [List.append_nil] at this
    rw [Memory.write, this]
    by_cases hb : b = a
    · by_cases hv : v = unlistedByte a <;> simp [hb, hv, Memory.read]
    · simp [hb]
  | cons c m ih =>
    obtain ⟨k, w⟩ := c
    simp only [Memory.wfFrom, Bool.and_eq_true, decide_eq_true_eq] at h
    obtain ⟨⟨⟨_, _⟩, hw⟩, hm⟩ := h
    unfold Memory.write
    split
    · next hlt =>
      rw [read_cell]
      by_cases hb : b = a
      · have : Memory.read ((k, w) :: m) a = unlistedByte a := by
          simp only [Memory.read]
          rw [if_neg (by omega)]
          exact read_below hm (by omega)
        by_cases hv : v = unlistedByte a <;> simp [hb, hv, this]
      · simp [hb]
    · split
      · next heq =>
        subst heq
        rw [read_cell]
        by_cases hb : b = a
        · have : Memory.read m a = unlistedByte a := read_below hm (by omega)
          by_cases hv : v = unlistedByte a <;> simp [hb, hv, this]
        · simp [hb, Memory.read, Ne.symm hb]
      · next hne =>
        simp only [Memory.read]
        by_cases hb : k = b
        · simp [hb, show b ≠ a by omega]
        · simp only [hb, if_false]
          exact ih hm

theorem wfFrom_cell_append {lo a : Nat} {v : Byte} {m : Memory} (hlo : lo ≤ a) (ha : a < 4096)
    (h : Memory.wfFrom (a + 1) m = true) : Memory.wfFrom lo (Memory.cell a v ++ m) = true := by
  unfold Memory.cell
  split
  · exact wfFrom_mono h (by omega)
  · next hv => simpa [Memory.wfFrom, hv, hlo, ha] using h

/-- A store inside the address space keeps the canonical form. -/
theorem wfFrom_write {lo a : Nat} {m : Memory} (h : Memory.wfFrom lo m = true) (hlo : lo ≤ a) (ha : a < 4096) (v : Byte) :
    Memory.wfFrom lo (m.write a v) = true := by
  induction m generalizing lo with
  | nil =>
    have := wfFrom_cell_append (v := v) (m := []) hlo ha rfl
    simpa [Memory.write] using this
  | cons c m ih =>
    obtain ⟨k, w⟩ := c
    have h' := h
    simp only [Memory.wfFrom, Bool.and_eq_true, decide_eq_true_eq] at h
    obtain ⟨⟨⟨hk, hk'⟩, hw⟩, hm⟩ := h
    unfold Memory.write
    split
    · next hlt =>
      refine wfFrom_cell_append hlo ha ?_
      simp only [Memory.wfFrom, Bool.and_eq_true, decide_eq_true_eq]
      exact ⟨⟨⟨by omega, hk'⟩, hw⟩, hm⟩
    · split
      · next heq => subst heq; exact wfFrom_cell_append hlo ha hm
      · next hne =>
        simp only [Memory.wfFrom, Bool.and_eq_true, decide_eq_true_eq]
        exact ⟨⟨⟨hk, hk'⟩, hw⟩, ih hm (by omega)⟩

theorem wf_write {a : Nat} {m : Memory} (h : m.wf = true) (ha : a < 4096) (v : Byte) : (m.write a v).wf = true :=
  wfFrom_write h (Nat.zero_le _) ha v

/-- Equal canonical memories are equal data. -/
theorem memory_ext {lo : Nat} {m m' : Memory} (h : Memory.wfFrom lo m = true) (h' : Memory.wfFrom lo m' = true)
    (hr : ∀ a, m.read a = m'.read a) : m = m' := by
  induction m generalizing lo m' with
  | nil =>
    cases m' with
    | nil => rfl
    | cons c m' =>
      obtain ⟨k, w⟩ := c
      simp only [Memory.wfFrom, Bool.and_eq_true, decide_eq_true_eq] at h'
      have := hr k
      simp only [Memory.read, if_true] at this
      exact absurd this.symm h'.1.2
  | cons c m ih =>
    obtain ⟨k, w⟩ := c
    have h0 := h
    simp only [Memory.wfFrom, Bool.and_eq_true, decide_eq_true_eq] at h
    cases m' with
    | nil =>
      have := hr k
      simp only [Memory.read, if_true] at this
      exact absurd this h.1.2
    | cons c' m' =>
      obtain ⟨k', w'⟩ := c'
      have h0' := h'
      simp only [Memory.wfFrom, Bool.and_eq_true, decide_eq_true_eq] at h'
      have hkk : k = k' := by
        rcases Nat.lt_trichotomy k k' with hlt | heq | hgt
        · have := hr k
          rw [show Memory.read ((k', w') :: m') k = unlistedByte k from
            read_below (lo := k') (by simp [Memory.wfFrom, h'.1.1.2, h'.1.2, h'.2]) hlt] at this
          simp only [Memory.read, if_true] at this
          exact absurd this h.1.2
        · exact heq
        · have := hr k'
          rw [show Memory.read ((k, w) :: m) k' = unlistedByte k' from
            read_below (lo := k) (by simp [Memory.wfFrom, h.1.1.2, h.1.2, h.2]) hgt] at this
          simp only [Memory.read, if_true] at this
          exact absurd this.symm h'.1.2
      subst hkk
      have hw : w = w' := by simpa [Memory.read] using hr k
      subst hw
      have hm : m = m' := by
        refine ih h.2 h'.2 fun a => ?_
        by_cases ha : a = k
        · subst ha
          rw [read_below h.2 (by omega), read_below h'.2 (by omega)]
        · simpa [Memory.read, Ne.symm ha] using hr a
      rw [hm]

theorem spanFault_none {addr n : Nat} : spanFault addr n = none ↔ n = 0 ∨ addr + n ≤ 4096 := by
  unfold spanFault; split <;> simp_all

theorem spanFault_some {addr n a : Nat} : spanFault addr n = some a ↔ n ≠ 0 ∧ 4096 < addr + n ∧ a = max addr 4096 := by
  unfold spanFault; split
  · simp; omega
  · simp; omega

@[simp] theorem length_readBytes (m : Memory) (addr n : Nat) : (m.readBytes addr n).length = n := by
  induction n generalizing addr with
  | zero => rfl
  | succ n ih => simp [Memory.readBytes, ih]

theorem getElem?_readBytes (m : Memory) (addr n k : Nat) (h : k < n) :
    (m.readBytes addr n)[k]? = some (m.read (addr + k)) := by
  induction n generalizing addr k with
  | zero => omega
  | succ n ih =>
    cases k with
    | zero => simp [Memory.readBytes]
    | succ k =>
      simp only [Memory.readBytes, List.getElem?_cons_succ]
      rw [ih (addr + 1) k (by omega)]
      congr 2
      omega

/-- A run of stores inside the address space keeps the canonical form. -/
theorem wf_writeBytes {addr : Nat} {bs : List Byte} {m : Memory} (h : m.wf = true) (hb : addr + bs.length ≤ 4096) :
    (m.writeBytes addr bs).wf = true := by
  induction bs generalizing m addr with
  | nil => exact h
  | cons b bs ih =>
    simp only [List.length_cons] at hb
    exact ih (wf_write h (by omega) b) (by omega)

/-- What a run of stores reads as: the stored bytes in their places, everything else as before. -/
theorem read_writeBytes {addr : Nat} {bs : List Byte} {m : Memory} (h : m.wf = true) (hb : addr + bs.length ≤ 4096)
    (a : Nat) :
    (m.writeBytes addr bs).read a = if addr ≤ a then (bs[a - addr]?).getD (m.read a) else m.read a := by
  induction bs generalizing m addr with
  | nil => simp [Memory.writeBytes]
  | cons b bs ih =>
    simp only [List.length_cons] at hb
    rw [Memory.writeBytes, ih (wf_write h (by omega) b) (by omega), read_write h]
    rcases Nat.lt_trichotomy a addr with hlt | heq | hgt
    · rw [if_neg (by omega), if_neg (by omega), if_neg (by omega)]
    · subst heq
      simp
    · simp only [if_pos (show addr + 1 ≤ a by omega), if_pos (show addr ≤ a by omega), if_neg (show a ≠ addr by omega)]
      obtain ⟨k, rfl⟩ : ∃ k, a = addr + 1 + k := ⟨a - (addr + 1), by omega⟩
      rw [show addr + 1 + k - (addr + 1) = k by omega, show addr + 1 + k - addr = k + 1 by omega]
      simp

/-- The checked write, once: either nothing is written and the lowest bad address is reported, or every byte is. -/
theorem writeSpan_cases (m : Memory) (addr : Nat) (bs : List Byte) :
    (bs = [] ∨ addr + bs.length ≤ 4096) ∧ m.writeSpan addr bs = .ok (m.writeBytes addr bs) ∨
    (bs ≠ [] ∧ 4096 < addr + bs.length) ∧ m.writeSpan addr bs = .error (max addr 4096) := by
  unfold Memory.writeSpan
  cases h : spanFault addr bs.length with
  | none =>
    left
    have := spanFault_none.mp h
    refine ⟨?_, rfl⟩
    cases bs <;> simp_all
  | some a =>
    right
    obtain ⟨h1, h2, rfl⟩ := spanFault_some.mp h
    exact ⟨⟨by cases bs <;> simp_all, h2⟩, rfl⟩

/-- The checked read, once. -/
theorem readSpan_cases (m : Memory) (addr n : Nat) :
    (n = 0 ∨ addr + n ≤ 4096) ∧ m.readSpan addr n = .ok (m.readBytes addr n) ∨
    (n ≠ 0 ∧ 4096 < addr + n) ∧ m.readSpan addr n = .error (max addr 4096) := by
  unfold Memory.readSpan
  cases h : spanFault addr n with
  | none => exact .inl ⟨spanFault_none.mp h, rfl⟩
  | some a =>
    obtain ⟨h1, h2, rfl⟩ := spanFault_some.mp h
    exact .inr ⟨⟨h1, h2⟩, rfl⟩

/-- A checked write keeps the canonical form. -/
theorem wf_writeSpan {m m' : Memory} {addr : Nat} {bs : List Byte} (h : m.wf = true)
    (hw : m.writeSpan addr bs = .ok m') : m'.wf = true := by
  rcases writeSpan_cases m addr bs with ⟨hb, he⟩ | ⟨_, he⟩
  · rw [he] at hw
    obtain rfl := Except.ok.inj hw
    rcases hb with rfl | hb
    · exact h
    · exact wf_writeBytes h hb
  · rw [he] at hw; cases hw

theorem wf_reset : State.reset.mem.wf = true := rfl

theorem wf_zeroed : Memory.zeroed.wf = true := by decide +kernel

/-- After step 1 of the reset sequence every byte is 0. -/
theorem read_zeroed (a : Nat) : Memory.zeroed.read a = 0 := by
  by_cases h : 80 ≤ a ∧ a < 160
  · have key : ∀ k : Fin 80, Memory.zeroed.read (80 + k.val) = 0 := by decide +kernel
    have := key ⟨a - 80, by omega⟩
    simpa [show 80 + (a - 80) = a by omega] using this
  · have hm : ∀ c ∈ Memory.zeroed, 80 ≤ c.1 ∧ c.1 < 160 := by decide +kernel
    have hu : unlistedByte a = 0 := by
      unfold unlistedByte fontBase
      split
      · rfl
      · exact List.getD_eq_default _ _ (by have : font.length = 80 := rfl; omega)
    generalize Memory.zeroed = m at hm
    induction m with
    | nil => exact hu
    | cons c m ih =>
      have hc := hm c (by simp)
      simp only [Memory.read]
      rw [if_neg (by omega)]
      exact ih fun c hc => hm c (by simp [hc])

/-- Fetch, once: the big-endian word where both bytes exist, else the lowest bad address. -/
theorem fetchWord_cases (s : State) :
    s.pc.toNat ≤ 4094 ∧ s.fetchWord = .ok (s.mem.read s.pc.toNat ++ s.mem.read (s.pc.toNat + 1)) ∨
    4094 < s.pc.toNat ∧ s.fetchWord = .error (max s.pc.toNat 4096) := by
  unfold State.fetchWord
  cases h : spanFault s.pc.toNat 2 with
  | none =>
    have := spanFault_none.mp h
    exact .inl ⟨by omega, rfl⟩
  | some a =>
    obtain ⟨_, h2, rfl⟩ := spanFault_some.mp h
    exact .inr ⟨by omega, rfl⟩

/-! ## Display -/

theorem row_setIfInBounds (fb : Display) (r r' : Nat) (m : BitVec 64) :
    Display.row (fb.setIfInBounds r m) r' = if r' = r ∧ r < 32 then m else fb.row r' := by
  unfold Display.row
  by_cases h' : r' < 32
  · simp only [h', dif_pos, Vector.getElem_setIfInBounds]
    by_cases h : r = r'
    · simp [h, h']
    · simp [h, Ne.symm h]
  · have : ¬(r' = r ∧ r < 32) := by omega
    simp [h', this]

/-- Bit c of a placed sprite byte: the sprite's bit 7 - (c - x0) for the eight columns from x0 on. -/
theorem getLsbD_spriteMask (b : Byte) (x0 c : Nat) (hc : c < 64) :
    (spriteMask b x0).getLsbD c = (decide (x0 ≤ c) && decide (c - x0 < 8) && b.getLsbD (7 - (c - x0))) := by
  unfold spriteMask
  simp only [BitVec.getLsbD_shiftLeft, BitVec.getLsbD_setWidth, BitVec.getLsbD_reverse, BitVec.getMsbD, hc]
  by_cases h : x0 ≤ c
  · by_cases h8 : c - x0 < 8
    · simp [h, h8, show ¬ c < x0 by omega, show c - x0 < 64 by omega]
    · simp [h8]
  · simp [h, show c < x0 by omega]

/-- Drawing leaves rows above the start row alone. -/
theorem row_draw_above {r' r : Nat} (bs : List Byte) (fb : Display) (x0 : Nat) (h : r' < r) :
    Display.row (fb.draw x0 r bs).1 r' = fb.row r' := by
  induction bs generalizing fb r with
  | nil => rfl
  | cons b bs ih =>
    simp only [Display.draw]
    rw [ih _ (by omega), row_setIfInBounds, if_neg (by omega)]

/-- Drawing, row by row: row r + k is XORed with the k-th sprite byte placed at x0. -/
theorem row_draw (bs : List Byte) (fb : Display) (x0 r r' : Nat) (hb : r + bs.length ≤ 32) :
    Display.row (fb.draw x0 r bs).1 r' =
      fb.row r' ^^^ (if r ≤ r' then ((bs[r' - r]?).map (spriteMask · x0)).getD 0 else 0) := by
  induction bs generalizing fb r with
  | nil => simp [Display.draw]
  | cons b bs ih =>
    simp only [List.length_cons] at hb
    simp only [Display.draw]
    rcases Nat.lt_trichotomy r' r with hlt | heq | hgt
    · rw [row_draw_above _ _ _ (by omega), row_setIfInBounds, if_neg (by omega), if_neg (by omega)]
      simp
    · subst heq
      rw [row_draw_above _ _ _ (by omega), row_setIfInBounds, if_pos (by omega)]
      simp
    · rw [ih _ _ (by omega), row_setIfInBounds, if_neg (by omega), if_pos (by omega), if_pos (by omega)]
      obtain ⟨k, rfl⟩ : ∃ k, r' = r + 1 + k := ⟨r' - (r + 1), by omega⟩
      rw [show r + 1 + k - (r + 1) = k by omega, show r + 1 + k - r = k + 1 by omega]
      simp

/-- The collision flag: some sprite byte, placed, meets a set pixel of its row. -/
theorem collision_draw (bs : List Byte) (fb : Display) (x0 r : Nat) (hb : r + bs.length ≤ 32) :
    (fb.draw x0 r bs).2 = true ↔ ∃ k b, bs[k]? = some b ∧ fb.row (r + k) &&& spriteMask b x0 ≠ 0 := by
  induction bs generalizing fb r with
  | nil => simp [Display.draw]
  | cons b bs ih =>
    simp only [List.length_cons] at hb
    simp only [Display.draw, Bool.or_eq_true, bne_iff_ne]
    rw [ih _ _ (by omega)]
    constructor
    · rintro (h | ⟨k, b', hk, h⟩)
      · exact ⟨0, b, by simp, by simpa using h⟩
      · refine ⟨k + 1, b', by simpa using hk, ?_⟩
        rwa [row_setIfInBounds, if_neg (by omega), show r + 1 + k = r + (k + 1) by omega] at h
    · rintro ⟨k, b', hk, h⟩
      cases k with
      | zero =>
        simp at hk
        subst hk
        exact .inl (by simpa using h)
      | succ k =>
        refine .inr ⟨k, b', by simpa using hk, ?_⟩
        rwa [row_setIfInBounds, if_neg (by omega), show r + 1 + k = r + (k + 1) by omega]

theorem row_blank (r : Nat) : Display.blank.row r = 0 := by
  unfold Display.row Display.blank
  split <;> simp

/-! ## Timers -/

theorem tickTimer_toNat (t : Byte) : (tickTimer t).toNat = t.toNat - 1 := by
  unfold tickTimer
  split
  · rw [BitVec.toNat_sub]
    have := t.isLt
    simp
    omega
  · omega

theorem countdown_toNat (n : Nat) (t : Byte) : (countdown n t).toNat = t.toNat - n := by
  induction n generalizing t with
  | zero => rfl
  | succ n ih => rw [countdown, ih, tickTimer_toNat]; omega

/-- Running n + 1 ticks is one tick event and then n more: `runTicks` is the tick event repeated. -/
theorem runTicks_succ (n : Nat) (s : State) : State.runTicks (n + 1) s = State.runTicks n s.tick := by
  simp [State.runTicks, State.tick, countdown]

theorem runTicks_zero (s : State) : State.runTicks 0 s = s := by
  simp [State.runTicks, countdown]

/-! ## The key wait -/

theorem lowestKey_none {k : Keys} : lowestKey k = none ↔ k = 0 := by
  unfold lowestKey
  simp only [List.find?_eq_none, List.mem_finRange, Bool.not_eq_true, true_implies]
  constructor
  · intro h
    apply BitVec.eq_of_getLsbD_eq
    intro i hi
    simpa using h ⟨i, hi⟩
  · rintro rfl i
    simp

theorem lowestKey_some {k : Keys} {j : Reg} (h : lowestKey k = some j) :
    k.getLsbD j.val = true ∧ ∀ i : Reg, i < j → k.getLsbD i.val = false := by
  revert h
  unfold lowestKey
  intro h
  have h1 := List.find?_some h
  refine ⟨h1, fun i hi => ?_⟩
  rw [List.find?_eq_some_iff_getElem] at h
  obtain ⟨_, n, hn, hj, hlt⟩ := h
  have hjn : n = j.val := by rw [← hj]; simp
  have := hlt i.val (by rw [hjn]; exact hi)
  simpa using this

/-! ## Step -/

theorem nextLines_next {r : Result} {t : State} (h : nextLines r = .next t) : ∃ u, r = .next u ∧ t = u.nextInput := by
  cases r with
  | next u => exact ⟨u, rfl, by simpa [nextLines] using h.symm⟩
  | fault r => cases h
  | refused r => cases h

/-- Where the next instruction comes from. -/
theorem step_eq (s : State) : step s = nextLines (State.runTicks s.input.ticks s).stepEvent := rfl

/-! ## The unrecognised word -/

/-- An unrecognised word, once: under the strict switch IllegalOpcode with the word as the value and nothing else
changed, otherwise pc advanced and nothing else changed (30_encoding.md R81, 60_exceptions.md R219). -/
theorem unrecognised_cases (strict : Bool) (w : Word) (s : State) :
    strict = true ∧ s.unrecognised strict w = s.raise .illegalOpcode w.toNat w ∨
    strict = false ∧ s.unrecognised strict w = s.advancePc := by
  cases strict
  · exact .inr ⟨rfl, rfl⟩
  · exact .inl ⟨rfl, rfl⟩

end Sys2Proof.Machine
end

