-- ==== Sys2Proof/Laws/PerInstr.lean ====
section
/-! SUPPORT. The family Roundtrip: for one instruction, decoding its encoding gives it back. One lemma per constructor
of `Instr`. -/

namespace Sys2Proof.Laws.Roundtrip

/-- Decoding the word of a well-formed instruction gives the instruction. -/
def Statement (i : Instr) : Prop := i.wf = true → decodeWord (encode i) = i

theorem cls (ign : Nibble) : Statement (.cls ign) := by
  intro _; simp [decodeWord, encode, fieldsOf_wordXKK, decodeFields, decodeFamily0]

theorem ret (ign : Nibble) : Statement (.ret ign) := by
  intro _; simp [decodeWord, encode, fieldsOf_wordXKK, decodeFields, decodeFamily0]

theorem sys (nnn : Imm12) : Statement (.sys nnn) := by
  intro h
  simp [Instr.wf, family0Selectors] at h
  simp [decodeWord, encode, fieldsOf_wordNNN, decodeFields, decodeFamily0, h]

theorem jp (nnn : Imm12) : Statement (.jp nnn) := by
  intro _; simp [decodeWord, encode, fieldsOf_wordNNN, decodeFields]

theorem call (nnn : Imm12) : Statement (.call nnn) := by
  intro _; simp [decodeWord, encode, fieldsOf_wordNNN, decodeFields]

theorem seImm (x : Reg) (kk : Byte) : Statement (.seImm x kk) := by
  intro _; simp [decodeWord, encode, fieldsOf_wordXKK, decodeFields]

theorem sneImm (x : Reg) (kk : Byte) : Statement (.sneImm x kk) := by
  intro _; simp [decodeWord, encode, fieldsOf_wordXKK, decodeFields]

theorem seReg (x : Reg) (y : Reg) (ign : Nibble) : Statement (.seReg x y ign) := by
  intro _; simp [decodeWord, encode, fieldsOf_wordXYN, decodeFields]

theorem ldImm (x : Reg) (kk : Byte) : Statement (.ldImm x kk) := by
  intro _; simp [decodeWord, encode, fieldsOf_wordXKK, decodeFields]

theorem addImm (x : Reg) (kk : Byte) : Statement (.addImm x kk) := by
  intro _; simp [decodeWord, encode, fieldsOf_wordXKK, decodeFields]

theorem ldReg (x : Reg) (y : Reg) : Statement (.ldReg x y) := by
  intro _; simp [decodeWord, encode, fieldsOf_wordXYN, decodeFields, decodeFamily8]

theorem orReg (x : Reg) (y : Reg) : Statement (.orReg x y) := by
  intro _; simp [decodeWord, encode, fieldsOf_wordXYN, decodeFields, decodeFamily8]

theorem andReg (x : Reg) (y : Reg) : Statement (.andReg x y) := by
  intro _; simp [decodeWord, encode, fieldsOf_wordXYN, decodeFields, decodeFamily8]

theorem xorReg (x : Reg) (y : Reg) : Statement (.xorReg x y) := by
  intro _; simp [decodeWord, encode, fieldsOf_wordXYN, decodeFields, decodeFamily8]

theorem addReg (x : Reg) (y : Reg) : Statement (.addReg x y) := by
  intro _; simp [decodeWord, encode, fieldsOf_wordXYN, decodeFields, decodeFamily8]

theorem subReg (x : Reg) (y : Reg) : Statement (.subReg x y) := by
  intro _; simp [decodeWord, encode, fieldsOf_wordXYN, decodeFields, decodeFamily8]

theorem shr (x : Reg) (y : Reg) : Statement (.shr x y) := by
  intro _; simp [decodeWord, encode, fieldsOf_wordXYN, decodeFields, decodeFamily8]

theorem subn (x : Reg) (y : Reg) : Statement (.subn x y) := by
  intro _; simp [decodeWord, encode, fieldsOf_wordXYN, decodeFields, decodeFamily8]

theorem shl (x : Reg) (y : Reg) : Statement (.shl x y) := by
  intro _; simp [decodeWord, encode, fieldsOf_wordXYN, decodeFields, decodeFamily8]

theorem sneReg (x : Reg) (y : Reg) (ign : Nibble) : Statement (.sneReg x y ign) := by
  intro _; simp [decodeWord, encode, fieldsOf_wordXYN, decodeFields]

theorem ldI (nnn : Imm12) : Statement (.ldI nnn) := by
  intro _; simp [decodeWord, encode, fieldsOf_wordNNN, decodeFields]

theorem jpV0 (nnn : Imm12) : Statement (.jpV0 nnn) := by
  intro _; simp [decodeWord, encode, fieldsOf_wordNNN, decodeFields]

theorem rnd (x : Reg) (kk : Byte) : Statement (.rnd x kk) := by
  intro _; simp [decodeWord, encode, fieldsOf_wordXKK, decodeFields]

theorem drw (x : Reg) (y : Reg) (n : Nibble) : Statement (.drw x y n) := by
  intro _; simp [decodeWord, encode, fieldsOf_wordXYN, decodeFields]

theorem skp (x : Reg) : Statement (.skp x) := by
  intro _; simp [decodeWord, encode, fieldsOf_wordXKK, decodeFields, decodeFamilyE]

theorem sknp (x : Reg) : Statement (.sknp x) := by
  intro _; simp [decodeWord, encode, fieldsOf_wordXKK, decodeFields, decodeFamilyE]

theorem ldVxDT (x : Reg) : Statement (.ldVxDT x) := by
  intro _; simp [decodeWord, encode, fieldsOf_wordXKK, decodeFields, decodeFamilyF]

theorem ldVxK (x : Reg) : Statement (.ldVxK x) := by
  intro _; simp [decodeWord, encode, fieldsOf_wordXKK, decodeFields, decodeFamilyF]

theorem ldDTVx (x : Reg) : Statement (.ldDTVx x) := by
  intro _; simp [decodeWord, encode, fieldsOf_wordXKK, decodeFields, decodeFamilyF]

theorem ldSTVx (x : Reg) : Statement (.ldSTVx x) := by
  intro _; simp [decodeWord, encode, fieldsOf_wordXKK, decodeFields, decodeFamilyF]

theorem addI (x : Reg) : Statement (.addI x) := by
  intro _; simp [decodeWord, encode, fieldsOf_wordXKK, decodeFields, decodeFamilyF]

theorem ldF (x : Reg) : Statement (.ldF x) := by
  intro _; simp [decodeWord, encode, fieldsOf_wordXKK, decodeFields, decodeFamilyF]

theorem ldB (x : Reg) : Statement (.ldB x) := by
  intro _; simp [decodeWord, encode, fieldsOf_wordXKK, decodeFields, decodeFamilyF]

theorem storeRegs (x : Reg) : Statement (.storeRegs x) := by
  intro _; simp [decodeWord, encode, fieldsOf_wordXKK, decodeFields, decodeFamilyF]

theorem loadRegs (x : Reg) : Statement (.loadRegs x) := by
  intro _; simp [decodeWord, encode, fieldsOf_wordXKK, decodeFields, decodeFamilyF]

theorem rsvd8 (x : Reg) (y : Reg) (n : Nibble) : Statement (.rsvd8 x y n) := by
  intro h
  simp [Instr.wf, family8Selectors] at h
  simp [decodeWord, encode, fieldsOf_wordXYN, decodeFields, decodeFamily8, h]

theorem rsvdE (x : Reg) (kk : Byte) : Statement (.rsvdE x kk) := by
  intro h
  simp [Instr.wf, familyESelectors] at h
  simp [decodeWord, encode, fieldsOf_wordXKK, decodeFields, decodeFamilyE, h]

theorem rsvdF (x : Reg) (kk : Byte) : Statement (.rsvdF x kk) := by
  intro h
  simp [Instr.wf, familyFSelectors] at h
  simp [decodeWord, encode, fieldsOf_wordXKK, decodeFields, decodeFamilyF, h]

end Sys2Proof.Laws.Roundtrip
end

