-- ==== Sys2Proof/Laws/Run.lean ====
section
/-! SUPPORT. Runs: the claims' `runSteps` is the host's run of the core; a run goes one step at a time. -/

namespace Sys2Proof.Machine

theorem runSteps_succ {s t : State} (k : Nat) (h : step s = .next t) : runSteps (k + 1) s = runSteps k t := by
  simp only [runSteps, h]

theorem runSteps_refused {s : State} {r : Refusal} (k : Nat) (h : step s = .refused r) :
    runSteps (k + 1) s = .refused r := by
  simp only [runSteps, h]

/-- A run of any core goes one step at a time. -/
theorem run_succ (M : Host.Core) (k : Nat) {s t : M.State} (h : M.step s = .next t) : M.run (k + 1) s = M.run k t := by
  simp only [Host.Core.run, h]

/-- A run stops at a refusal. -/
theorem run_refused (M : Host.Core) (k : Nat) {s : M.State} {r : M.Refusal} (h : M.step s = .refused r) :
    M.run (k + 1) s = .refused r := by
  simp only [Host.Core.run, h]

/-- The host's run of the core is `runSteps`. -/
theorem core_run_eq (k : Nat) (s : State) : Host.Core.run Sys2Proof.core k s = runSteps k s := by
  induction k generalizing s with
  | zero => rfl
  | succ k ih =>
    cases h : step s with
    | next t => exact (run_succ Sys2Proof.core k h).trans ((ih t).trans (runSteps_succ k h).symm)
    | fault r => cases r
    | refused r => exact (run_refused Sys2Proof.core k h).trans (runSteps_refused k h).symm

end Sys2Proof.Machine
end

