-- ==== Sys2Proof/Laws/Transfer.lean ====
section
/-! SUPPORT. The operand forms of the transfers and of the key wait, said once: storing at I, the registers V0 to Vx,
loading them, fresh keys. -/

namespace Sys2Proof.Machine

/-- Storing at I, once: every byte stored and pc advanced, or OutOfBounds with the lowest bad address and nothing else
changed. -/
theorem storeAtI_cases (s : State) (bs : List Byte) (w : Word) :
    (bs = [] ∨ s.base + bs.length ≤ 4096) ∧
      s.storeAtI bs w = { s.advancePc with mem := s.mem.writeBytes s.base bs } ∨
    (bs ≠ [] ∧ 4096 < s.base + bs.length) ∧ s.storeAtI bs w = s.raise .outOfBounds (max s.base 4096) w := by
  unfold State.storeAtI
  rcases writeSpan_cases s.mem s.base bs with ⟨h, e⟩ | ⟨h, e⟩
  · exact .inl ⟨h, by rw [e]⟩
  · exact .inr ⟨h, by rw [e]⟩

@[simp] theorem length_firstRegs (s : State) (x : Reg) : (s.firstRegs x).length = x.val + 1 := by
  simp [State.firstRegs]

theorem getElem?_firstRegs (s : State) (x : Reg) (k : Nat) (h : k ≤ x.val) :
    (s.firstRegs x)[k]? = some (s.reg ⟨k, by omega⟩) := by
  simp [State.firstRegs, State.reg, List.getElem?_take]
  omega

@[simp] theorem length_decimalDigits (v : Byte) : (decimalDigits v).length = 3 := rfl

/-- Loading registers from i on: the bytes in their places, the other registers as before. -/
theorem getElem_loadFrom (bs : List Byte) (i : Nat) (v : Vector Byte 16) (r : Nat) (hr : r < 16) :
    (loadFrom i bs v)[r] = if i ≤ r then (bs[r - i]?).getD v[r] else v[r] := by
  induction bs generalizing i v with
  | nil => simp [loadFrom]
  | cons b bs ih =>
    rw [loadFrom, ih]
    rcases Nat.lt_trichotomy i r with h | h | h
    · obtain ⟨k, rfl⟩ : ∃ k, r = i + 1 + k := ⟨r - (i + 1), by omega⟩
      rw [if_pos (by omega), if_pos (by omega), show i + 1 + k - (i + 1) = k by omega,
        show i + 1 + k - i = k + 1 by omega, Vector.getElem_setIfInBounds, if_neg (by omega)]
      simp
    · subst h; simp
    · rw [if_neg (by omega), if_neg (by omega), Vector.getElem_setIfInBounds, if_neg (by omega)]

/-- A key is fresh when it is down now and was up before. -/
theorem getLsbD_freshKeys (now prev : Keys) (k : Nat) (hk : k < 16) :
    (freshKeys now prev).getLsbD k = (now.getLsbD k && !prev.getLsbD k) := by
  simp [freshKeys, hk]

end Sys2Proof.Machine
end

