-- ==== Sys2Proof/Tests/Slice0.lean ====
section
/-! SUPPORT. The model's own tests: the ill-formed terms that WellFormed refuses, a word written out from the spec for
every constructor, one-step tests on the values of 95_test_vectors.md, and a witness for the hypotheses of every
obligation that has some. -/

namespace Sys2Proof.Tests

open Sys2Proof Sys2Proof.Machine

/-! ## Helpers -/

/-- A view of the next state; none when there is none. -/
def got {α : Type} (r : Result) (f : State → α) : Option α :=
  match r with
  | .next t => some (f t)
  | .fault _ => none
  | .refused _ => none

/-- The reset state with some registers set. -/
def regs (l : List (Reg × Byte)) : State := l.foldl (fun t p => t.setReg p.1 p.2) State.reset

/-- Bytes placed in memory. -/
def put (a : Nat) (bs : List Byte) (s : State) : State := { s with mem := s.mem.writeBytes a bs }

/-- Pixels set in the display, as (row, column). -/
def lit (l : List (Nat × Nat)) (s : State) : State :=
  { s with fb := l.foldl (fun fb p => fb.setIfInBounds p.1 (fb.row p.1 ||| 1#64 <<< p.2)) s.fb }

/-- One step that runs the word `w` (the start of every vector of 95_test_vectors.md: the word at pc, one step). -/
def one {α : Type} (w : Word) (s : State) (f : State → α) : Option α := got (step (s.withFetchWord 16 w.toNat)) f

/-- A fault record in the order of 95_test_vectors.md. -/
def flt (c : Cause) (addr : Nat) (fpc finstr : Word) : Option FaultRecord :=
  some { cause := c, addr := addr, fpc := fpc, finstr := finstr }

/-! ## WellFormed refuses (30_encoding.md R81, R84) -/

theorem test_wf_refuses_sys_E0 : (Instr.sys 0x0E0).wf = false := by decide
theorem test_wf_refuses_sys_EE : (Instr.sys 0x3EE).wf = false := by decide
theorem test_wf_refuses_rsvd8_selector_of_add : (Instr.rsvd8 1 2 4).wf = false := by decide
theorem test_wf_refuses_rsvdE_selector_of_skp : (Instr.rsvdE 1 0x9E).wf = false := by decide
theorem test_wf_refuses_rsvdF_selector_of_timer_read : (Instr.rsvdF 1 0x07).wf = false := by decide

/-! ## Decoding: words written out from the patterns of 30_encoding.md R79, R81 -/

theorem test_decode_family0 :
    decodeWord 0b0000000011100000#16 = .cls 0 ∧ decodeWord 0b0000000011101110#16 = .ret 0 ∧
    decodeWord 0b0000000100100011#16 = .sys 0x123 := by decide
theorem test_decode_control :
    decodeWord 0b0001101010111100#16 = .jp 0xABC ∧ decodeWord 0b0010101010111100#16 = .call 0xABC ∧
    decodeWord 0b0011101000111100#16 = .seImm 0xA 0x3C ∧ decodeWord 0b0100101000111100#16 = .sneImm 0xA 0x3C ∧
    decodeWord 0b0101101010110000#16 = .seReg 0xA 0xB 0 ∧ decodeWord 0b1001101010110000#16 = .sneReg 0xA 0xB 0 ∧
    decodeWord 0b1011000000010010#16 = .jpV0 0x012 := by decide
theorem test_decode_loads :
    decodeWord 0b0110101000101111#16 = .ldImm 0xA 0x2F ∧ decodeWord 0b0111101000101111#16 = .addImm 0xA 0x2F ∧
    decodeWord 0b1100001100001111#16 = .rnd 3 0x0F := by decide
theorem test_decode_family8 :
    decodeWord 0b1000101010110000#16 = .ldReg 0xA 0xB ∧ decodeWord 0b1000101010110001#16 = .orReg 0xA 0xB ∧
    decodeWord 0b1000101010110010#16 = .andReg 0xA 0xB ∧ decodeWord 0b1000101010110011#16 = .xorReg 0xA 0xB ∧
    decodeWord 0b1000101010110100#16 = .addReg 0xA 0xB ∧ decodeWord 0b1000101010110101#16 = .subReg 0xA 0xB ∧
    decodeWord 0b1000101010110110#16 = .shr 0xA 0xB ∧ decodeWord 0b1000101010110111#16 = .subn 0xA 0xB ∧
    decodeWord 0b1000101010111110#16 = .shl 0xA 0xB := by decide
theorem test_decode_index_and_display :
    decodeWord 0b1010001100000001#16 = .ldI 0x301 ∧ decodeWord 0b1101000100101111#16 = .drw 1 2 0xF ∧
    decodeWord 0b1111001000011110#16 = .addI 2 ∧ decodeWord 0b1111001000101001#16 = .ldF 2 ∧
    decodeWord 0b1111001000110011#16 = .ldB 2 ∧ decodeWord 0b1111001001010101#16 = .storeRegs 2 ∧
    decodeWord 0b1111001001100101#16 = .loadRegs 2 := by decide
theorem test_decode_keys_and_timers :
    decodeWord 0b1110000110011110#16 = .skp 1 ∧ decodeWord 0b1110000110100001#16 = .sknp 1 ∧
    decodeWord 0b1111010000000111#16 = .ldVxDT 4 ∧ decodeWord 0b1111010100001010#16 = .ldVxK 5 ∧
    decodeWord 0b1111010000010101#16 = .ldDTVx 4 ∧ decodeWord 0b1111000000011000#16 = .ldSTVx 0 := by decide
theorem test_decode_reserved :
    decodeWord 0b1000000100101000#16 = .rsvd8 1 2 8 ∧ decodeWord 0b1110000110011111#16 = .rsvdE 1 0x9F ∧
    decodeWord 0b1111000111111111#16 = .rsvdF 1 0xFF := by decide
theorem test_decode_ignored_digits :
    decodeWord 0x01E0 = .cls 1 ∧ decodeWord 0x0AEE = .ret 0xA ∧ decodeWord 0x5121 = .seReg 1 2 1 ∧
    decodeWord 0x912F = .sneReg 1 2 0xF := by decide
theorem test_decode_bytes_big_endian : decode [0x8A, 0xB4, 0x12] = .ok (.addReg 0xA 0xB, [0x12]) := by rfl
theorem test_decode_truncated : decode [0x8A] = .error (.truncated 1) := by rfl
theorem test_decodeTableWord : decodeTableWord 16 0x8AB4 = some (.addReg 0xA 0xB) := by decide

/-! ## Control transfer (95_test_vectors.md 2.1, 2.2) -/

theorem test_sys_only_advances : one 0x00E1 (lit [(0, 0)] State.reset) (fun t => (t.fb.pixel 0 0, t.pc)) =
    some (true, 0x202) := by decide
theorem test_jp : one 0x1ABC State.reset (fun t => t.pc) = some 0xABC := by decide
theorem test_ret_pops : one 0x0AEE { State.reset with sp := 2, stack := State.reset.stack.set 1 0x456 }
    (fun t => (t.pc, t.sp)) = some (0x456, 1) := by decide
theorem test_ret_underflow : one 0x00EE State.reset (fun t => (t.fault, t.pc)) =
    some (flt .stackUnderflow 0 0x200 0x00EE, 0x200) := by decide
theorem test_call_last_slot : one 0x2300 { State.reset with sp := 15 } (fun t => (t.stack[15], t.sp, t.pc)) =
    some (0x202, 16, 0x300) := by decide
theorem test_call_overflow : one 0x2300 { State.reset with sp := 16 } (fun t => (t.fault, t.sp, t.stack[15])) =
    some (flt .stackOverflow 16 0x200 0x2300, 16, 0) := by decide
theorem test_seImm : one 0x3000 State.reset (fun t => t.pc) = some 0x204 := by decide
theorem test_seImm_not : one 0x3000 (regs [(0, 1)]) (fun t => t.pc) = some 0x202 := by decide
theorem test_sneImm : one 0x41FF (regs [(1, 0xFE)]) (fun t => t.pc) = some 0x204 := by decide
theorem test_sneImm_not : one 0x41FF (regs [(1, 0xFF)]) (fun t => t.pc) = some 0x202 := by decide
theorem test_seReg_ignores_last_digit : one 0x5121 (regs [(1, 9), (2, 9)]) (fun t => t.pc) = some 0x204 := by decide
theorem test_sneReg_ignores_last_digit : one 0x912F (regs [(1, 7), (2, 8)]) (fun t => t.pc) = some 0x204 := by decide
theorem test_sneReg_not : one 0x9120 (regs [(1, 7), (2, 7)]) (fun t => t.pc) = some 0x202 := by decide
theorem test_jpV0_not_wrapped : one 0xBFFF (regs [(0, 0xFF)]) (fun t => t.pc) = some 0x10FE := by decide

/-! ## Arithmetic and logic (95_test_vectors.md 2.3) -/

theorem test_ldImm : one 0x6A2F State.reset (fun t => t.reg 0xA) = some 0x2F := by decide
theorem test_addImm_no_flag : one 0x7001 (regs [(0, 0xFF)]) (fun t => (t.reg 0, t.reg 15)) = some (0, 0) := by decide
theorem test_addImm_VF : one 0x7F01 (regs [(15, 0xFF)]) (fun t => t.reg 15) = some 0 := by decide
theorem test_ldReg : one 0x8120 (regs [(2, 0x9C)]) (fun t => t.reg 1) = some 0x9C := by decide
theorem test_orReg_keeps_VF : one 0x8121 (regs [(1, 0xF0), (2, 0x0F), (15, 9)]) (fun t => (t.reg 1, t.reg 15)) =
    some (0xFF, 9) := by decide
theorem test_andReg : one 0x8122 (regs [(1, 0xF3), (2, 0x3C)]) (fun t => t.reg 1) = some 0x30 := by decide
theorem test_xorReg : one 0x8123 (regs [(1, 0xFF), (2, 0x0F)]) (fun t => t.reg 1) = some 0xF0 := by decide
theorem test_addReg_old_VF_is_the_addend : one 0x81F4 (regs [(1, 0xFF), (15, 1)]) (fun t => (t.reg 1, t.reg 15)) =
    some (0, 1) := by decide
theorem test_addReg_flag_overwrites : one 0x8F14 (regs [(15, 0xF0), (1, 0x20)]) (fun t => (t.reg 15, t.reg 1)) =
    some (1, 0x20) := by decide
theorem test_subReg : one 0x8125 (regs [(1, 0x10), (2, 1)]) (fun t => (t.reg 1, t.reg 15)) = some (0x0F, 1) := by decide
theorem test_subReg_equal_clears : one 0x8125 (regs [(1, 7), (2, 7), (15, 1)]) (fun t => (t.reg 1, t.reg 15)) =
    some (0, 0) := by decide
theorem test_shr_takes_Vy : one 0x8126 (regs [(2, 5), (1, 0xAA)]) (fun t => (t.reg 1, t.reg 15, t.reg 2)) =
    some (2, 1, 5) := by decide
theorem test_shr_VF_last : one 0x8FF6 (regs [(15, 2)]) (fun t => t.reg 15) = some 0 := by decide
theorem test_subn : one 0x8127 (regs [(1, 1), (2, 0x10)]) (fun t => (t.reg 1, t.reg 15)) = some (0x0F, 1) := by decide
theorem test_subn_borrow : one 0x8127 (regs [(1, 5), (2, 3)]) (fun t => (t.reg 1, t.reg 15)) = some (0xFE, 0) := by
  decide
theorem test_shl : one 0x812E (regs [(2, 0x81)]) (fun t => (t.reg 1, t.reg 15)) = some (2, 1) := by decide
theorem test_shl_VF_last : one 0x8F2E (regs [(2, 0x7F)]) (fun t => (t.reg 15, t.reg 2)) = some (0, 0x7F) := by decide
theorem test_rnd : one 0xC30F { State.reset with input := { keys := 0, rnd := 0xB7, ticks := 0 } } (fun t => t.reg 3) =
    some 7 := by decide

/-! ## Index register and memory (95_test_vectors.md 2.4) -/

theorem test_ldI : one 0xA300 State.reset (fun t => t.I) = some 0x300 := by decide
theorem test_addI_wraps : one 0xF11E { regs [(1, 1), (15, 7)] with I := 0xFFFF } (fun t => (t.I, t.reg 15)) =
    some (0, 7) := by decide
theorem test_addI_past_4095 : one 0xF11E { regs [(1, 1), (15, 7)] with I := 0x0FFF } (fun t => (t.I, t.reg 15)) =
    some (0x1000, 7) := by decide
theorem test_ldF : one 0xF029 (regs [(0, 0x0A)]) (fun t => t.I) = some 0x82 := by decide
theorem test_ldF_whole_byte : one 0xF129 (regs [(1, 0xFF)]) (fun t => t.I) = some 0x54B := by decide
theorem test_ldB : one 0xF033 { regs [(0, 254)] with I := 0x300 }
    (fun t => (t.mem.read 0x300, t.mem.read 0x301, t.mem.read 0x302)) = some (2, 5, 4) := by decide
theorem test_ldB_out_of_bounds : one 0xF133 { regs [(1, 255)] with I := 4094 }
    (fun t => (t.fault, t.mem.read 4094)) = some (flt .outOfBounds 4096 0x200 0xF133, 0) := by decide
theorem test_storeRegs : one 0xF255 { regs [(0, 1), (1, 2), (2, 3)] with I := 0x400 }
    (fun t => (t.mem.read 0x400, t.mem.read 0x402, t.mem.read 0x403, t.I)) = some (1, 3, 0, 0x400) := by decide
theorem test_storeRegs_out_of_bounds : one 0xFF55 { regs [(0, 1)] with I := 4081 }
    (fun t => (t.fault, t.mem.read 4081)) = some (flt .outOfBounds 4096 0x200 0xFF55, 0) := by decide
theorem test_loadRegs_font : one 0xFF65 { State.reset with I := 0x50 }
    (fun t => (t.reg 0, t.reg 5, t.reg 14, t.reg 15)) = some (0xF0, 0x20, 0xF0, 0xF0) := by decide
theorem test_loadRegs_out_of_bounds : one 0xF165 { put 4095 [0xAB] State.reset with I := 4095 }
    (fun t => (t.fault, t.reg 0)) = some (flt .outOfBounds 4096 0x200 0xF165, 0) := by decide

/-! ## Display (95_test_vectors.md 1, 2.5) -/

theorem test_cls : one 0x00E0 (lit [(0, 0), (31, 63)] State.reset)
    (fun t => (t.fb.pixel 0 0, t.fb.pixel 31 63, t.displayUpdated)) = some (false, false, true) := by decide
theorem test_drw_glyph_0 : one 0xD015 { State.reset with I := 0x50 }
    (fun t => ([0, 1, 2, 3, 4, 5].map fun r => (t.fb.row r).toNat, t.reg 15)) =
    some ([15, 9, 9, 9, 15, 0], 0) := by decide
theorem test_drw_wraps_start_clips_edge : one 0xD011 { put 0x300 [0xFF] (regs [(0, 124), (1, 33)]) with I := 0x300 }
    (fun t => ((t.fb.row 1).toNat, (t.fb.row 0).toNat, t.reg 15)) = some (0xF * 2 ^ 60, 0, 0) := by decide

/-! ## Timers and keys (95_test_vectors.md 1, 2.6) -/

theorem test_ldVxDT : one 0xF407 { State.reset with DT := 0x3C } (fun t => t.reg 4) = some 0x3C := by decide
theorem test_ldDTVx : one 0xF415 (regs [(4, 0x3C)]) (fun t => t.DT) = some 0x3C := by decide
theorem test_ldSTVx : one 0xF018 (regs [(0, 2)]) (fun t => (t.ST, t.soundOn)) = some (2, true) := by decide
theorem test_ticks : (State.runTicks 3 { State.reset with DT := 2, ST := 5 }).DT = 0 ∧
    (State.runTicks 3 { State.reset with DT := 2, ST := 5 }).ST = 2 := by decide
theorem test_skp : one 0xE19E { regs [(1, 15)] with input := { keys := 0x8000, rnd := 0, ticks := 0 } } (fun t => t.pc) =
    some 0x204 := by decide
theorem test_skp_fault : one 0xE19E (regs [(1, 16)]) (fun t => t.fault) =
    some (flt .keyIndexOutOfRange 16 0x200 0xE19E) := by decide
theorem test_sknp : one 0xE1A1 (regs [(1, 15)]) (fun t => t.pc) = some 0x204 := by decide
theorem test_sknp_fault : one 0xE1A1 (regs [(1, 255)]) (fun t => t.fault) =
    some (flt .keyIndexOutOfRange 255 0x200 0xE1A1) := by decide
theorem test_ldVxK_begins : one 0xF50A State.reset (fun t => (t.mode, t.waitReg, t.pc, t.reg 5)) =
    some (.awaitingKey, 5, 0x202, 0) := by decide

/-- A state in a key wait for register x. -/
def waiting (x : Reg) (prev now : Keys) : State :=
  { State.reset with
    mode := .awaitingKey, waitReg := x, keyPrev := prev, input := { keys := now, rnd := 0, ticks := 0 } }

theorem test_poll_lowest_key : got (step (waiting 1 0 0x0088)) (fun t => (t.reg 1, t.mode, t.pc)) =
    some (3, .running, 0x200) := by decide
theorem test_poll_held_key_is_not_fresh : got (step (waiting 1 0x0200 0x0200)) (fun t => (t.reg 1, t.mode)) =
    some (0, .awaitingKey) := by decide

/-! ## Reserved words (95_test_vectors.md 2.1) -/

theorem test_rsvd8 : one 0x8128 (regs [(1, 3), (2, 4), (15, 9)]) (fun t => (t.reg 1, t.reg 15, t.pc, t.fault)) =
    some (3, 9, 0x202, none) := by decide
theorem test_rsvdE_does_not_read_the_key_index : one 0xE19F (regs [(1, 0x55)]) (fun t => (t.pc, t.fault)) =
    some (0x202, none) := by decide
theorem test_rsvdF : one 0xF130 (regs [(1, 0x55)]) (fun t => (t.I, t.pc, t.fault)) = some (0, 0x202, none) := by decide

/-! ## The step and reset (95_test_vectors.md 2.2, 2.7) -/

theorem test_fetch_at_4095 : got (step { State.reset with pc := 0xFFF }) (fun t => (t.fault, t.pc)) =
    some (flt .outOfBounds 4096 0xFFF 0, 0xFFF) := by decide
theorem test_fetch_above_4095 : got (step { State.reset with pc := 0x10FE }) (fun t => t.fault) =
    some (flt .outOfBounds 0x10FE 0x10FE 0) := by decide
theorem test_first_step_of_empty_rom : got (step State.reset) (fun t => (t.pc, t.fault)) = some (0x202, none) := by
  decide
theorem test_reset_loads : ([0x200, 0x201, 0x202, 0x50, 0x4F, 0xA0].map (State.resetWith [0x12, 0x34] State.reset).mem.read) =
    [0x12, 0x34, 0, 0xF0, 0, 0] := by decide +kernel

/-! ## Witnesses: states and operands that meet the hypotheses of the obligations -/

theorem witness_wellFormed : (Instr.sys 0x0E1).wf = true ∧ (Instr.rsvd8 0 15 0xF).wf = true ∧
    (Instr.rsvdE 15 0xA2).wf = true ∧ (Instr.rsvdF 0 0xFF).wf = true := by decide

/-- AddSetsCarry, SubtractSetsStrictlyGreater, ShiftsTakeVyAndSetLostBit: the clause on x ≠ 15. -/
theorem witness_not_VF : (14 : Reg) ≠ 15 := by decide

/-- CallPushesOrOverflows, ReturnPopsOrUnderflows, CallThenReturnRestores: both clauses at the boundary. -/
theorem witness_stack : ({ State.reset with sp := 15 } : State).sp.val < 16 ∧ ({ State.reset with sp := 16 } : State).sp.val = 16 ∧
    0 < ({ State.reset with sp := 1 } : State).sp.val ∧ State.reset.sp.val = 0 := by decide
theorem witness_call_then_return : ({ State.reset with sp := 15 } : State).sp.val < 16 := by decide

theorem witness_DecimalDigitsStored : ({ State.reset with I := 4093 } : State).mem.wf = true ∧
    ({ State.reset with I := 4093 } : State).base ≤ 4093 := by decide
/-- RegistersStored, RegistersLoaded, StoredRegistersLoadBack: the highest I for the longest transfer, and registers on
both sides of x. -/
theorem witness_register_transfers : ({ State.reset with I := 4080 } : State).mem.wf = true ∧
    ({ State.reset with I := 4080 } : State).base + (15 : Reg).val ≤ 4095 ∧
    ({ State.reset with I := 4095 } : State).base + (0 : Reg).val ≤ 4095 ∧ (0 : Reg) ≤ 0 ∧ (0 : Reg) < 1 := by decide
/-- OutOfBoundsTransfersFault: every clause at its lowest failing I. -/
theorem witness_OutOfBoundsTransfersFault : ({ State.reset with I := 4094 } : State).base + 2 > 4095 ∧
    ({ State.reset with I := 4081 } : State).base + (15 : Reg).val > 4095 ∧
    0 < min (3 : Nibble).toNat (32 - (({ regs [(1, 29)] with I := 4094 } : State).reg 1).toNat % 32) ∧
    ({ regs [(1, 29)] with I := 4094 } : State).base +
      min (3 : Nibble).toNat (32 - (({ regs [(1, 29)] with I := 4094 } : State).reg 1).toNat % 32) - 1 > 4095 := by decide
theorem witness_FetchSeesStores : ({ State.reset with I := 0x202 } : State).mem.wf = true ∧
    ({ State.reset with I := 0x202 } : State).base = ({ State.reset with I := 0x202 } : State).pc.toNat + 2 ∧
    1 ≤ (1 : Reg).val ∧ ({ State.reset with I := 0x202 } : State).base + (1 : Reg).val ≤ 4095 := by decide

/-- DrawXorsClippedSprite, DrawTwiceRestoresDisplay: two visible rows at the top of memory, the third clipped. -/
theorem witness_draw_at_top : (30 : Nat) = (({ regs [(1, 30)] with I := 4094 } : State).reg 1).toNat % 32 ∧
    (2 : Nat) = min (3 : Nibble).toNat (32 - 30) ∧ ({ regs [(1, 30)] with I := 4094 } : State).base + 2 - 1 ≤ 4095 := by
  decide
/-- The same: no row at all, I far above memory. -/
theorem witness_draw_nothing : (0 : Nat) = min (0 : Nibble).toNat (32 - 0) := by decide
/-- DrawTwiceRestoresDisplay, the last clause: a clear display and a sprite bit on the screen. -/
theorem witness_draw_twice : (∀ r < 32, ∀ c < 64, State.reset.fb.pixel r c = false) ∧
    spriteBit { State.reset with I := 0x50 } 0 0 5 4 3 = true := by
  refine ⟨?_, by decide⟩
  intro r hr c _
  simp [State.reset, Display.pixel, Display.row, hr]

/-- StrictModeRaisesIllegalOpcode: an unrecognised word at an end of each row of R81, recognised words beside them, and a
recognised word that raises a fault. -/
theorem witness_StrictMode : unrecognisedWord 0x8008 = true ∧ unrecognisedWord 0x8FFF = true ∧
    unrecognisedWord 0xE000 = true ∧ unrecognisedWord 0xF0FF = true ∧ unrecognisedWord 0x8007 = false ∧
    unrecognisedWord 0x800E = false ∧ unrecognisedWord 0x0123 = false ∧ unrecognisedWord 0x00EE = false ∧
    State.reset.fault = none ∧
    got (exec (decodeWord 0x00EE) State.reset) (fun t => t.fault) = some (flt .stackUnderflow 0 0x200 0x00EE) := by decide
/-- CallThenReturnRestores: slots on both sides of sp. -/
theorem witness_slots_beside_sp : ({ State.reset with sp := 7 } : State).sp.val < 16 ∧
    (6 : Fin 16).val ≠ ({ State.reset with sp := 7 } : State).sp.val ∧
    (8 : Fin 16).val ≠ ({ State.reset with sp := 7 } : State).sp.val := by decide

theorem witness_KeySkips : ((regs [(1, 15)]).reg 1).toNat ≤ 15 ∧ ((regs [(1, 16)]).reg 1).toNat > 15 := by decide
theorem witness_KeyWaitPolls_none : (waiting 5 0x8001 0x8001).fault = none ∧ (waiting 5 0x8001 0x8001).mode = .awaitingKey ∧
    ∀ k : Fin 16, ¬((waiting 5 0x8001 0x8001).input.keys.getLsbD k.val = true ∧
      (waiting 5 0x8001 0x8001).keyPrev.getLsbD k.val = false) := by decide
theorem witness_KeyWaitPolls_some : (waiting 5 1 0x8001).input.keys.getLsbD (15 : Fin 16).val = true ∧
    (waiting 5 1 0x8001).keyPrev.getLsbD (15 : Fin 16).val = false ∧
    ∀ j : Fin 16, j < 15 → ¬((waiting 5 1 0x8001).input.keys.getLsbD j.val = true ∧
      (waiting 5 1 0x8001).keyPrev.getLsbD j.val = false) := by decide

/-- A state with a word in the last two bytes of memory and pc on it. -/
def atTop : State := put 4094 [0x6A, 0x2F] { State.reset with pc := 4094 }

theorem witness_StepRunsDecodedInstruction : atTop.fault = none ∧ atTop.mode = .running ∧ atTop.pc.toNat ≤ 4094 ∧
    decode [atTop.mem.read atTop.pc.toNat, atTop.mem.read (atTop.pc.toNat + 1)] = .ok (.ldImm 0xA 0x2F, []) := by
  refine ⟨by decide, by decide, by decide, by rfl⟩
theorem witness_PlacedWordIsRunNext : atTop.mem.wf = true ∧ atTop.pc.toNat ≤ 4094 := by decide
theorem witness_FetchAboveMemoryFaults : ({ State.reset with pc := 4095 } : State).fault = none ∧
    ({ State.reset with pc := 4095 } : State).mode = .running ∧ ({ State.reset with pc := 4095 } : State).pc.toNat > 4094 := by
  decide

/-- A core with a latched fault (95_test_vectors.md 2.7). -/
def stopped : State := { State.reset with fault := flt .stackOverflow 16 0x200 0x2200, DT := 3 }

theorem witness_StepWithLatchedFaultDoesNothing :
    stopped.fault = some { cause := .stackOverflow, addr := 16, fpc := 0x200, finstr := 0x2200 } := by decide
theorem witness_FaultedCoreStaysStopped : ∃ t, runSteps 2 stopped = .next t := ⟨_, rfl⟩

/-- FaultsArePrecise, OnlyListedInstructionsFault: an instruction of each case that raises its fault. -/
theorem witness_faults_raised : State.reset.fault = none ∧
    got (exec (.call 0x300) { State.reset with sp := 16 }) (fun t => t.fault) = some (flt .stackOverflow 16 0x200 0x2300) ∧
    got (exec (.ret 0) State.reset) (fun t => t.fault) = some (flt .stackUnderflow 0 0x200 0x00EE) ∧
    got (exec (.loadRegs 1) { State.reset with I := 4095 }) (fun t => t.fault) = some (flt .outOfBounds 4096 0x200 0xF165) ∧
    got (exec (.storeRegs 15) { State.reset with I := 4081 }) (fun t => t.fault) = some (flt .outOfBounds 4096 0x200 0xFF55) ∧
    got (exec (.ldB 1) { State.reset with I := 4094 }) (fun t => t.fault) = some (flt .outOfBounds 4096 0x200 0xF133) ∧
    got (exec (.drw 0 1 3) { regs [(1, 29)] with I := 4094 }) (fun t => t.fault) =
      some (flt .outOfBounds 4096 0x200 0xD013) ∧
    got (exec (.sknp 1) (regs [(1, 16)])) (fun t => t.fault) = some (flt .keyIndexOutOfRange 16 0x200 0xE1A1) := by
  decide

/-- StepKeepsTheInvariant, EventsKeepTheInvariant: a state with two occupied stack entries at the ends of their range. -/
theorem witness_invariant :
    State.Inv { State.reset with pc := 4350, sp := 2, stack := (State.reset.stack.set 0 2).set 1 4096 } ∧
    (∃ t, step { State.reset with pc := 4350, sp := 2, stack := (State.reset.stack.set 0 2).set 1 4096 } = .next t) ∧
    ∀ e, ∃ t, State.onEvent { State.reset with pc := 4350, sp := 2, stack := (State.reset.stack.set 0 2).set 1 4096 } e =
      .next t := by
  refine ⟨⟨by decide, by decide, by decide, fun r h => by cases h⟩, ⟨_, rfl⟩, ?_⟩
  intro e
  cases e <;> exact ⟨_, rfl⟩

/-- MemoryAndDisplayWriters, OtherStateWriters, OnlyDestinationRegistersChange, InputsReachOnlyTheirInstructions: 6A2F
is none of the instructions they name, and V0 is not its destination. -/
theorem witness_writers : (∃ t, exec (.ldImm 0xA 0x2F) State.reset = .next t) ∧
    (∀ x, Instr.ldImm 0xA 0x2F ≠ .ldB x) ∧ (∀ x, Instr.ldImm 0xA 0x2F ≠ .storeRegs x) ∧
    (∀ ign, Instr.ldImm 0xA 0x2F ≠ .cls ign) ∧ (∀ x y n, Instr.ldImm 0xA 0x2F ≠ .drw x y n) ∧
    (∀ nnn, Instr.ldImm 0xA 0x2F ≠ .call nnn) ∧ (∀ ign, Instr.ldImm 0xA 0x2F ≠ .ret ign) ∧
    (∀ nnn, Instr.ldImm 0xA 0x2F ≠ .ldI nnn) ∧ (∀ x, Instr.ldImm 0xA 0x2F ≠ .addI x) ∧
    (∀ x, Instr.ldImm 0xA 0x2F ≠ .ldF x) ∧ (∀ x, Instr.ldImm 0xA 0x2F ≠ .ldDTVx x) ∧
    (∀ x, Instr.ldImm 0xA 0x2F ≠ .ldSTVx x) ∧ (∀ x, Instr.ldImm 0xA 0x2F ≠ .ldVxK x) ∧
    (∀ x, Instr.ldImm 0xA 0x2F ≠ .skp x) ∧ (∀ x, Instr.ldImm 0xA 0x2F ≠ .sknp x) ∧
    (∀ x kk, Instr.ldImm 0xA 0x2F ≠ .rnd x kk) ∧ (0 : Reg) ∉ destRegs (.ldImm 0xA 0x2F) := by
  refine ⟨⟨_, rfl⟩, ?_, ?_, ?_, ?_, ?_, ?_, ?_, ?_, ?_, ?_, ?_, ?_, ?_, ?_, ?_, by decide⟩ <;> intros <;>
    exact Instr.noConfusion

/-- ResetLoadsFontAndRom, ResetRefusesLargeRom, ResetRefusesFontBaseAboveMemory, FirstFetchReadsRomStart: the largest
ROM that fits, the smallest that does not, the lowest font base that does not fit. -/
theorem witness_reset : (List.replicate 3584 (1 : Byte)).length ≤ 3584 ∧ (List.replicate 3585 (1 : Byte)).length > 3584 ∧
    (4017 : Nat) + 80 > 4096 ∧ (List.replicate 3582 (1 : Byte)).length ≤ 3582 := by
  simp only [List.length_replicate]; decide

end Sys2Proof.Tests
end

section
/-! PROOFS. Control transfer (40_control.md): what an update of pc alone keeps, where a jump and a skip go, and the
statements on 0nnn, 1nnn, Bnnn, 3xkk and 4xkk. -/

namespace Sys2Proof.Machine

/-! ## Updates of pc keep everything else -/

theorem regFrame_setPc (s : State) (a : Word) : RegFrame [] s { s with pc := a } :=
  ⟨fun _ _ => rfl, rfl, fun _ => rfl⟩

theorem regFrame_advancePc (s : State) : RegFrame [] s s.advancePc := regFrame_setPc s (s.pc + 2)

theorem regFrame_jumpTo (s : State) (a : Word) : RegFrame [] s (s.jumpTo a) := regFrame_setPc s a

theorem regFrame_skipIf (c : Bool) (s : State) : RegFrame [] s (State.skipIf c s) := by
  rw [skipIf_eq]
  exact regFrame_setPc s _

/-! ## Targets -/

/-- A skip whose condition decides `p` goes to A + 4 if `p` holds and to A + 2 if not (40_control.md R100). -/
theorem skipIf_pc_of_iff {c : Bool} {p : Prop} [Decidable p] (h : c = true ↔ p) (s : State) :
    (State.skipIf c s).pc = s.pc + (if p then 4 else 2) := by
  rw [skipIf_eq]
  by_cases hp : p
  · simp only [if_pos hp, if_pos (h.mpr hp)]
  · simp only [if_neg hp, if_neg (mt h.mp hp)]

theorem zext16_toNat (nnn : Imm12) : (zext16 nnn).toNat = nnn.toNat :=
  BitVec.toNat_setWidth_of_le (by decide)

/-- The target of Bnnn is the exact sum: 4095 + 255 is below 65536, so the 16-bit addition does not wrap
(40_control.md R109). -/
theorem indexedTarget_toNat (nnn : Imm12) (v0 : Byte) : (indexedTarget nnn v0).toNat = nnn.toNat + v0.toNat := by
  have hv0 : (v0.setWidth 16).toNat = v0.toNat := BitVec.toNat_setWidth_of_le (by decide)
  have hsum : nnn.toNat + v0.toNat < 2 ^ 16 := by omega
  rw [indexedTarget, BitVec.toNat_add, zext16_toNat, hv0, Nat.mod_eq_of_lt hsum]

/-! ## The statements -/

/-- Settles O11: each of the three only sets pc, to the advance, to zext(nnn), or to the sum that does not wrap. -/
theorem noopAndJumps : Obligations.NoopAndJumps := by
  intro s nnn
  refine ⟨wordNNN_mask 0x0 nnn, wordNNN_mask 0x1 nnn, wordNNN_mask 0xB nnn, ?sys, ?jp, ?jpV0⟩
  case sys => exact ⟨s.advancePc, rfl, advancePc_pc s, regFrame_advancePc s⟩
  case jp => exact ⟨s.jumpTo (zext16 nnn), rfl, zext16_toNat nnn, regFrame_jumpTo s _⟩
  case jpV0 =>
    exact ⟨s.jumpTo (indexedTarget nnn (s.reg 0)), rfl, indexedTarget_toNat nnn (s.reg 0), regFrame_jumpTo s _⟩

/-- Settles O12: both are the skip operation, on `==` and on `!=`, which decide equality and difference. -/
theorem immediateSkips : Obligations.ImmediateSkips := by
  intro s x kk
  refine ⟨wordXKK_mask 0x3 (ofReg x) kk, wordXKK_mask 0x4 (ofReg x) kk, ?seImm, ?sneImm⟩
  case seImm => exact ⟨s.skipIf (s.reg x == kk), rfl, skipIf_pc_of_iff beq_iff_eq s, regFrame_skipIf _ s⟩
  case sneImm => exact ⟨s.skipIf (s.reg x != kk), rfl, skipIf_pc_of_iff bne_iff_ne s, regFrame_skipIf _ s⟩

end Sys2Proof.Machine
end

section
/-! PROOFS. Loads, arithmetic, logic and shifts (41_alu.md): a frame survives a write to one of its destinations, what
an instruction leaves that writes Vx alone or Vx and then the flag, the flags and the difference as numbers, and the
statements on 6xkk, 7xkk and 8xy0 to 8xyE. -/

namespace Sys2Proof.Machine

/-! ## Frames compose -/

theorem RegFrame.refl (dst : List Reg) (s : State) : RegFrame dst s s := ⟨fun _ _ => rfl, rfl, fun _ => rfl⟩

theorem RegFrame.setReg {dst : List Reg} {s t : State} (h : RegFrame dst s t) {x : Reg} (hx : x ∈ dst) (v : Byte) :
    RegFrame dst s (t.setReg x v) := by
  obtain ⟨hreg, heq, hmem⟩ := h
  refine ⟨fun r hr => ?_, congrArg (State.setReg · x v) heq, hmem⟩
  have hne : r ≠ x := fun hrx => hr (hrx ▸ hx)
  exact (reg_setReg_ne t hne v).trans (hreg r hr)

theorem RegFrame.advancePc {dst : List Reg} {s t : State} (h : RegFrame dst s t) : RegFrame dst s t.advancePc := by
  obtain ⟨hreg, heq, hmem⟩ := h
  exact ⟨hreg, congrArg State.advancePc heq, hmem⟩

/-! ## The two forms of an instruction of this family -/

/-- What an instruction leaves that writes Vx, without a flag, and advances (41_alu.md R121 to R126). -/
theorem setReg_outcome {i : Instr} {s : State} {x : Reg} {v : Byte}
    (h : exec i s = .next (s.setReg x v).advancePc) :
    ∃ t, exec i s = .next t ∧ t.reg x = v ∧ t.pc = s.pc + 2 ∧ RegFrame [x] s t :=
  ⟨_, h, reg_setReg_self s x v, rfl, ((RegFrame.refl [x] s).setReg (by simp) v).advancePc⟩

/-- What a flag-writing instruction leaves: VF is the flag also when x is 15, because the flag is the last write
(41_alu.md R127 to R131). -/
theorem writeFlagged_outcome {i : Instr} {s : State} {x : Reg} {v : Byte} {f : Bool}
    (h : exec i s = .next (s.writeFlagged x v f).advancePc) :
    ∃ t, exec i s = .next t ∧ t.reg 15 = flagByte f ∧ (x ≠ 15 → t.reg x = v) ∧ t.pc = s.pc + 2 ∧
      RegFrame [x, 15] s t := by
  refine ⟨_, h, ?flag, fun hx => ?result, rfl, ?frame⟩
  case flag => exact (reg_writeFlagged s x regVF v f).trans (if_pos rfl)
  case result => rw [reg_advancePc, reg_writeFlagged, if_neg (show x ≠ regVF from hx), if_pos rfl]
  case frame => exact (((RegFrame.refl [x, 15] s).setReg (by simp) v).setReg (by simp [regVF]) (flagByte f)).advancePc

/-! ## Flags and results as numbers -/

theorem flagByte_toNat (f : Bool) : (flagByte f).toNat = f.toNat := by cases f <;> rfl

theorem flagByte_carryFlag (a b : Byte) : flagByte (carryFlag a b) = if a.toNat + b.toNat > 255 then 1 else 0 := by
  simp only [flagByte, carryFlag, decide_eq_true_eq]

theorem flagByte_greaterFlag (a b : Byte) : flagByte (greaterFlag a b) = if a.toNat > b.toNat then 1 else 0 := by
  simp only [flagByte, greaterFlag, decide_eq_true_eq]

theorem flagByte_lowBit_toNat (b : Byte) : (flagByte (lowBit b)).toNat = b.toNat % 2 := by
  rw [flagByte_toNat, lowBit, BitVec.getLsbD, Nat.toNat_testBit, pow_zero, Nat.div_one]

/-- Bit 7 is the whole quotient by 128, because a byte is below 256. -/
theorem flagByte_highBit_toNat (b : Byte) : (flagByte (highBit b)).toNat = b.toNat / 128 := by
  have hlt : b.toNat < 2 ^ 8 := b.isLt
  rw [flagByte_toNat, highBit, BitVec.getLsbD, Nat.toNat_testBit]
  omega

theorem diffByte_toNat (a b : Byte) : ((diffByte a b).toNat : Int) = (a.toNat - b.toNat : Int) % 256 := by
  rw [diffByte, BitVec.toNat_ofInt]
  omega

/-! ## The statements -/

/-- Settles O7: a flag-writing instruction with the sum and the carry. -/
theorem addSetsCarry : Obligations.AddSetsCarry := by
  intro s x y
  obtain ⟨t, hexec, hflag, hres, hpc, hframe⟩ := writeFlagged_outcome (i := .addReg x y) (s := s) rfl
  refine ⟨wordXYN_maskN 0x8 (ofReg x) (ofReg y) 0x4, t, hexec, ?flag, fun hx => ?sum, hpc, hframe⟩
  case flag => exact hflag.trans (flagByte_carryFlag (s.reg x) (s.reg y))
  case sum => rw [hres hx, sumByte_toNat]

/-- What either subtraction leaves, for minuend a and subtrahend b (41_alu.md R128, R130). -/
theorem subtract_outcome {i : Instr} {s : State} {x : Reg} {a b : Byte}
    (h : exec i s = .next (s.writeFlagged x (diffByte a b) (greaterFlag a b)).advancePc) :
    ∃ t, exec i s = .next t ∧ t.reg 15 = (if a.toNat > b.toNat then 1 else 0) ∧
      (x ≠ 15 → ((t.reg x).toNat : Int) = (a.toNat - b.toNat : Int) % 256) ∧
      t.pc = s.pc + 2 ∧ RegFrame [x, 15] s t := by
  obtain ⟨t, hexec, hflag, hres, hpc, hframe⟩ := writeFlagged_outcome h
  refine ⟨t, hexec, ?flag, fun hx => ?difference, hpc, hframe⟩
  case flag => exact hflag.trans (flagByte_greaterFlag a b)
  case difference => rw [hres hx, diffByte_toNat]

/-- Settles O8: 8xy5 and 8xy7 are one subtraction with the operands exchanged. -/
theorem subtractSetsStrictlyGreater : Obligations.SubtractSetsStrictlyGreater := by
  intro s x y
  exact ⟨wordXYN_maskN 0x8 (ofReg x) (ofReg y) 0x5, wordXYN_maskN 0x8 (ofReg x) (ofReg y) 0x7,
    subtract_outcome rfl, subtract_outcome rfl⟩

/-- Settles O9: flag-writing instructions whose result and flag are both taken from the old Vy. -/
theorem shiftsTakeVyAndSetLostBit : Obligations.ShiftsTakeVyAndSetLostBit := by
  intro s x y
  refine ⟨wordXYN_maskN 0x8 (ofReg x) (ofReg y) 0x6, wordXYN_maskN 0x8 (ofReg x) (ofReg y) 0xE, ?shr, ?shl⟩
  case shr =>
    obtain ⟨t, hexec, hflag, hres, hpc, hframe⟩ := writeFlagged_outcome (i := .shr x y) (s := s) rfl
    refine ⟨t, hexec, ?_, fun hx => ?_, hpc, hframe⟩
    · rw [hflag, flagByte_lowBit_toNat]
    · rw [hres hx, shrByte_toNat]
  case shl =>
    obtain ⟨t, hexec, hflag, hres, hpc, hframe⟩ := writeFlagged_outcome (i := .shl x y) (s := s) rfl
    refine ⟨t, hexec, ?_, fun hx => ?_, hpc, hframe⟩
    · rw [hflag, flagByte_highBit_toNat]
    · rw [hres hx, shlByte_toNat]

/-- Settles O5: both write Vx without a flag, with kk or with the sum modulo 256. -/
theorem loadAndAddImmediate : Obligations.LoadAndAddImmediate := by
  intro s x kk
  refine ⟨wordXKK_mask 0x6 (ofReg x) kk, wordXKK_mask 0x7 (ofReg x) kk, setReg_outcome rfl, ?addImm⟩
  case addImm =>
    obtain ⟨t, hexec, hres, hpc, hframe⟩ := setReg_outcome (i := .addImm x kk) (s := s) rfl
    exact ⟨t, hexec, by rw [hres, sumByte_toNat], hpc, hframe⟩

/-- Settles O6: each writes Vx without a flag, and a bit of the result is the connective on the operands' bits. -/
theorem copyAndBitwise : Obligations.CopyAndBitwise := by
  intro s x y
  refine ⟨wordXYN_maskN 0x8 (ofReg x) (ofReg y) 0x0, wordXYN_maskN 0x8 (ofReg x) (ofReg y) 0x1,
    wordXYN_maskN 0x8 (ofReg x) (ofReg y) 0x2, wordXYN_maskN 0x8 (ofReg x) (ofReg y) 0x3,
    setReg_outcome rfl, ?orReg, ?andReg, ?xorReg⟩
  case orReg =>
    obtain ⟨t, hexec, hres, hpc, hframe⟩ := setReg_outcome (i := .orReg x y) (s := s) rfl
    exact ⟨t, hexec, fun k _ => by rw [hres, BitVec.getLsbD_or], hpc, hframe⟩
  case andReg =>
    obtain ⟨t, hexec, hres, hpc, hframe⟩ := setReg_outcome (i := .andReg x y) (s := s) rfl
    exact ⟨t, hexec, fun k _ => by rw [hres, BitVec.getLsbD_and], hpc, hframe⟩
  case xorReg =>
    obtain ⟨t, hexec, hres, hpc, hframe⟩ := setReg_outcome (i := .xorReg x y) (s := s) rfl
    exact ⟨t, hexec, fun k _ => by rw [hres, BitVec.getLsbD_xor], hpc, hframe⟩

end Sys2Proof.Machine
end

section
/-! PROOFS. The index register (42_index_memory.md): the font address as a number, what an instruction leaves that
writes I alone, and the statement on Annn, Fx1E and Fx29. -/

namespace Sys2Proof.Machine

/-- The address of a glyph is exact for the whole byte: 80 + 5 * 255 is below 65536 (42_index_memory.md R153). -/
theorem glyphAddress_toNat (v : Byte) : (glyphAddress v).toNat = fontBase + 5 * v.toNat := by
  have hlt : fontBase + 5 * v.toNat < 2 ^ 16 := by unfold fontBase; omega
  rw [glyphAddress, BitVec.toNat_ofNat, Nat.mod_eq_of_lt hlt]

/-- What an instruction leaves that writes I and advances, for a value of I with the number n: no other field differs,
so no general register does (42_index_memory.md R150). -/
theorem setI_outcome {i : Instr} {s : State} {a : Word} {n : Nat}
    (h : exec i s = .next { s.advancePc with I := a }) (ha : a.toNat = n) :
    ∃ t, exec i s = .next t ∧ t.I.toNat = n ∧ t.pc = s.pc + 2 ∧ t = { s with I := t.I, pc := t.pc } ∧
      SameMemory s t :=
  ⟨_, h, ha, rfl, rfl, fun _ => rfl⟩

/-- Settles O17: each writes I alone, with zext(nnn), the sum modulo 65536, or the glyph's address. -/
theorem indexRegisterWrites : Obligations.IndexRegisterWrites := by
  intro s nnn x
  refine ⟨wordNNN_mask 0xA nnn, wordXKK_maskKK 0xF (ofReg x) 0x1E, wordXKK_maskKK 0xF (ofReg x) 0x29,
    ?ldI, ?addI, ?ldF⟩
  case ldI => exact setI_outcome rfl (zext16_toNat nnn)
  case addI => exact setI_outcome rfl (BitVec.toNat_ofNat _ 16)
  case ldF => exact setI_outcome rfl (glyphAddress_toNat (s.reg x))

end Sys2Proof.Machine
end

section
/-! PROOFS. The timers (44_timer_key.md): what the output sound_on says of ST, and the statement on Fx07, Fx15 and
Fx18. -/

namespace Sys2Proof.Machine

theorem soundOn_iff (s : State) : s.soundOn = true ↔ s.ST ≠ 0 := bne_iff_ne

/-- Settles O27: Fx07 writes Vx without a flag, Fx15 and Fx18 write one timer, and sound_on says that the new ST is not
0. -/
theorem timerInstructions : Obligations.TimerInstructions := by
  intro s x
  refine ⟨wordXKK_maskKK 0xF (ofReg x) 0x07, wordXKK_maskKK 0xF (ofReg x) 0x15, wordXKK_maskKK 0xF (ofReg x) 0x18,
    setReg_outcome rfl, ?ldDTVx, ?ldSTVx⟩
  case ldDTVx => exact ⟨{ s.advancePc with DT := s.reg x }, rfl, rfl, advancePc_pc s, rfl, fun _ => rfl⟩
  case ldSTVx =>
    exact ⟨{ s.advancePc with ST := s.reg x }, rfl, rfl, soundOn_iff _, advancePc_pc s, rfl, fun _ => rfl⟩

end Sys2Proof.Machine
end

section
/-! PROOFS. The encoding (30_encoding.md R70 to R84): the round trips in both directions, the opcode map and the
unrecognised words, from the fields of a word. -/

namespace Sys2Proof

/-! ## From an instruction to its word and back -/

/-- Decoding the word of a well-formed instruction gives the instruction, row by row. -/
theorem decodeWord_encode : ∀ i : Instr, Laws.Roundtrip.Statement i
  | .cls ign => Laws.Roundtrip.cls ign
  | .ret ign => Laws.Roundtrip.ret ign
  | .sys nnn => Laws.Roundtrip.sys nnn
  | .jp nnn => Laws.Roundtrip.jp nnn
  | .call nnn => Laws.Roundtrip.call nnn
  | .seImm x kk => Laws.Roundtrip.seImm x kk
  | .sneImm x kk => Laws.Roundtrip.sneImm x kk
  | .seReg x y ign => Laws.Roundtrip.seReg x y ign
  | .ldImm x kk => Laws.Roundtrip.ldImm x kk
  | .addImm x kk => Laws.Roundtrip.addImm x kk
  | .ldReg x y => Laws.Roundtrip.ldReg x y
  | .orReg x y => Laws.Roundtrip.orReg x y
  | .andReg x y => Laws.Roundtrip.andReg x y
  | .xorReg x y => Laws.Roundtrip.xorReg x y
  | .addReg x y => Laws.Roundtrip.addReg x y
  | .subReg x y => Laws.Roundtrip.subReg x y
  | .shr x y => Laws.Roundtrip.shr x y
  | .subn x y => Laws.Roundtrip.subn x y
  | .shl x y => Laws.Roundtrip.shl x y
  | .sneReg x y ign => Laws.Roundtrip.sneReg x y ign
  | .ldI nnn => Laws.Roundtrip.ldI nnn
  | .jpV0 nnn => Laws.Roundtrip.jpV0 nnn
  | .rnd x kk => Laws.Roundtrip.rnd x kk
  | .drw x y n => Laws.Roundtrip.drw x y n
  | .skp x => Laws.Roundtrip.skp x
  | .sknp x => Laws.Roundtrip.sknp x
  | .ldVxDT x => Laws.Roundtrip.ldVxDT x
  | .ldVxK x => Laws.Roundtrip.ldVxK x
  | .ldDTVx x => Laws.Roundtrip.ldDTVx x
  | .ldSTVx x => Laws.Roundtrip.ldSTVx x
  | .addI x => Laws.Roundtrip.addI x
  | .ldF x => Laws.Roundtrip.ldF x
  | .ldB x => Laws.Roundtrip.ldB x
  | .storeRegs x => Laws.Roundtrip.storeRegs x
  | .loadRegs x => Laws.Roundtrip.loadRegs x
  | .rsvd8 x y n => Laws.Roundtrip.rsvd8 x y n
  | .rsvdE x kk => Laws.Roundtrip.rsvdE x kk
  | .rsvdF x kk => Laws.Roundtrip.rsvdF x kk

/-- Settles O2: the bytes of an instruction are the bytes of its word, and its word decodes to it. -/
theorem decodeOfEncodeGivesBack : Obligations.DecodeOfEncodeGivesBack := by
  intro i rest hwf
  rw [encodeBytes, decode_bytesOfWord, decodeWord_encode i hwf]

/-! ## From a word to its instruction and back -/

/-- Family 0 keeps every bit: a selected row has the selector as its low byte, and 0nnn keeps nnn whole. -/
theorem encode_decodeFamily0 (w : Word) :
    (decodeFamily0 (fieldsOf w)).wf = true ∧
      (encode (decodeFamily0 (fieldsOf w)) = wordXKK 0x0 (fieldsOf w).x (fieldsOf w).kk ∨
        encode (decodeFamily0 (fieldsOf w)) = wordNNN 0x0 (fieldsOf w).nnn) := by
  have hkk : (fieldsOf w).nnn.extractLsb' 0 8 = (fieldsOf w).kk := by
    simp [fieldsOf]
  unfold decodeFamily0
  split_ifs with hcls hret
  · exact ⟨rfl, .inl (by rw [hcls]; rfl)⟩
  · exact ⟨rfl, .inl (by rw [hret]; rfl)⟩
  · exact ⟨by simp [Instr.wf, family0Selectors, hkk, hcls, hret], .inr rfl⟩

theorem encode_decodeFamily8 (f : Fields) :
    (decodeFamily8 f).wf = true ∧ encode (decodeFamily8 f) = wordXYN 0x8 f.x f.y f.n := by
  unfold decodeFamily8
  split_ifs <;> simp [Instr.wf, encode, family8Selectors, *]

theorem encode_decodeFamilyE (f : Fields) :
    (decodeFamilyE f).wf = true ∧ encode (decodeFamilyE f) = wordXKK 0xE f.x f.kk := by
  unfold decodeFamilyE
  split_ifs <;> simp [Instr.wf, encode, familyESelectors, *]

theorem encode_decodeFamilyF (f : Fields) :
    (decodeFamilyF f).wf = true ∧ encode (decodeFamilyF f) = wordXKK 0xF f.x f.kk := by
  unfold decodeFamilyF
  split_ifs <;> simp [Instr.wf, encode, familyFSelectors, *]

theorem wordNNN_of_op {w : Word} {op : Nibble} (h : (fieldsOf w).op = op) : wordNNN op (fieldsOf w).nnn = w :=
  h ▸ wordNNN_fieldsOf w

theorem wordXKK_of_op {w : Word} {op : Nibble} (h : (fieldsOf w).op = op) :
    wordXKK op (fieldsOf w).x (fieldsOf w).kk = w :=
  h ▸ wordXKK_fieldsOf w

theorem wordXYN_of_op {w : Word} {op : Nibble} (h : (fieldsOf w).op = op) :
    wordXYN op (fieldsOf w).x (fieldsOf w).y (fieldsOf w).n = w :=
  h ▸ wordXYN_fieldsOf w

/-- The families of the opcode map, one per value of the high nibble (30_encoding.md R78, R79). -/
inductive Family (f : Fields) : Nibble → Instr → Prop
  | family0 : Family f 0x0 (decodeFamily0 f)
  | jp : Family f 0x1 (.jp f.nnn)
  | call : Family f 0x2 (.call f.nnn)
  | seImm : Family f 0x3 (.seImm (toReg f.x) f.kk)
  | sneImm : Family f 0x4 (.sneImm (toReg f.x) f.kk)
  | seReg : Family f 0x5 (.seReg (toReg f.x) (toReg f.y) f.n)
  | ldImm : Family f 0x6 (.ldImm (toReg f.x) f.kk)
  | addImm : Family f 0x7 (.addImm (toReg f.x) f.kk)
  | family8 : Family f 0x8 (decodeFamily8 f)
  | sneReg : Family f 0x9 (.sneReg (toReg f.x) (toReg f.y) f.n)
  | ldI : Family f 0xA (.ldI f.nnn)
  | jpV0 : Family f 0xB (.jpV0 f.nnn)
  | rnd : Family f 0xC (.rnd (toReg f.x) f.kk)
  | drw : Family f 0xD (.drw (toReg f.x) (toReg f.y) f.n)
  | familyE : Family f 0xE (decodeFamilyE f)
  | familyF : Family f 0xF (decodeFamilyF f)

/-- The decoder, once: the high nibble picks the family. -/
theorem family_decodeFields (f : Fields) : Family f f.op (decodeFields f) := by
  obtain ⟨op, x, y, n, kk, nnn⟩ := f
  obtain ⟨⟨op, hop⟩⟩ := op
  simp only [decodeFields]
  interval_cases op <;> constructor

/-- What the decoder gives is well-formed and encodes to the word, family by family: the fields of the format that the
family uses make up the whole word. -/
theorem wf_and_encode_decodeWord (w : Word) : (decodeWord w).wf = true ∧ encode (decodeWord w) = w := by
  have hfam : Family (fieldsOf w) (fieldsOf w).op (decodeWord w) := family_decodeFields (fieldsOf w)
  generalize hop : (fieldsOf w).op = op at hfam
  generalize decodeWord w = i at hfam
  cases hfam with
  | family0 =>
    obtain ⟨hwf, henc | henc⟩ := encode_decodeFamily0 w
    · exact ⟨hwf, henc.trans (wordXKK_of_op hop)⟩
    · exact ⟨hwf, henc.trans (wordNNN_of_op hop)⟩
  | family8 =>
    obtain ⟨hwf, henc⟩ := encode_decodeFamily8 (fieldsOf w)
    exact ⟨hwf, henc.trans (wordXYN_of_op hop)⟩
  | familyE =>
    obtain ⟨hwf, henc⟩ := encode_decodeFamilyE (fieldsOf w)
    exact ⟨hwf, henc.trans (wordXKK_of_op hop)⟩
  | familyF =>
    obtain ⟨hwf, henc⟩ := encode_decodeFamilyF (fieldsOf w)
    exact ⟨hwf, henc.trans (wordXKK_of_op hop)⟩
  | jp | call | ldI | jpV0 => exact ⟨rfl, wordNNN_of_op hop⟩
  | seImm | sneImm | ldImm | addImm | rnd => exact ⟨rfl, wordXKK_of_op hop⟩
  | seReg | sneReg | drw => exact ⟨rfl, wordXYN_of_op hop⟩

/-- Settles O3, by the families of the decoder. -/
theorem encodeOfDecodeGivesBack : Obligations.EncodeOfDecodeGivesBack :=
  wf_and_encode_decodeWord

theorem encode_decodeWord (w : Word) : encode (decodeWord w) = w := (wf_and_encode_decodeWord w).2

/-! ## The opcode map -/

/-- A row of the map that tests the high nibble only. -/
def opRow (mnemonic : String) (op : Nibble) : Machine.OpcodeRow := ⟨mnemonic, 0xF000, op ++ (0 : Imm12)⟩

/-- A row of the map that tests the high nibble and the low nibble. -/
def nRow (mnemonic : String) (op n : Nibble) : Machine.OpcodeRow := ⟨mnemonic, 0xF00F, op ++ (0 : Byte) ++ n⟩

/-- A row of the map that tests the high nibble and the low byte. -/
def kkRow (mnemonic : String) (op : Nibble) (kk : Byte) : Machine.OpcodeRow :=
  ⟨mnemonic, 0xF0FF, op ++ (0 : Nibble) ++ kk⟩

/-- Every row of the map tests the high nibble, and at most one selector besides (30_encoding.md R78, R79). -/
theorem opcodeMap_eq : Machine.opcodeMap =
    [kkRow "00E0" 0x0 0xE0, kkRow "00EE" 0x0 0xEE, opRow "0nnn" 0x0, opRow "1nnn" 0x1, opRow "2nnn" 0x2,
     opRow "3xkk" 0x3, opRow "4xkk" 0x4, opRow "5xy0" 0x5, opRow "6xkk" 0x6, opRow "7xkk" 0x7,
     nRow "8xy0" 0x8 0x0, nRow "8xy1" 0x8 0x1, nRow "8xy2" 0x8 0x2, nRow "8xy3" 0x8 0x3, nRow "8xy4" 0x8 0x4,
     nRow "8xy5" 0x8 0x5, nRow "8xy6" 0x8 0x6, nRow "8xy7" 0x8 0x7, nRow "8xyE" 0x8 0xE,
     opRow "9xy0" 0x9, opRow "Annn" 0xA, opRow "Bnnn" 0xB, opRow "Cxkk" 0xC, opRow "Dxyn" 0xD,
     kkRow "Ex9E" 0xE 0x9E, kkRow "ExA1" 0xE 0xA1,
     kkRow "Fx07" 0xF 0x07, kkRow "Fx0A" 0xF 0x0A, kkRow "Fx15" 0xF 0x15, kkRow "Fx18" 0xF 0x18,
     kkRow "Fx1E" 0xF 0x1E, kkRow "Fx29" 0xF 0x29, kkRow "Fx33" 0xF 0x33, kkRow "Fx55" 0xF 0x55,
     kkRow "Fx65" 0xF 0x65, opRow "RSVD8" 0x8, opRow "RSVDE" 0xE, opRow "RSVDF" 0xF] := by
  rfl

theorem append_beq_append {m n : Nat} (a a' : BitVec m) (b b' : BitVec n) :
    (a ++ b == a' ++ b') = (a == a' && b == b') := by
  have hinj : a ++ b = a' ++ b' ↔ a = a' ∧ b = b' := by
    refine ⟨fun h => ⟨?_, ?_⟩, fun ⟨ha, hb⟩ => by rw [ha, hb]⟩
    · simpa only [BitVec.extractLsb'_append_eq_left] using congrArg (BitVec.extractLsb' n m) h
    · simpa only [BitVec.extractLsb'_append_eq_right] using congrArg (BitVec.extractLsb' 0 n) h
  rw [Bool.eq_iff_iff, Bool.and_eq_true, beq_iff_eq, beq_iff_eq, beq_iff_eq, hinj]

theorem opRow_matches (w : Word) (m : String) (op : Nibble) :
    (w &&& (opRow m op).mask == (opRow m op).value) = ((fieldsOf w).op == op) := by
  have hmask : w &&& 0xF000 = (fieldsOf w).op ++ (0 : Imm12) := by
    rw [← wordNNN_mask (fieldsOf w).op (fieldsOf w).nnn, wordNNN_fieldsOf]
  rw [opRow, hmask, append_beq_append, beq_self_eq_true, Bool.and_true]

theorem nRow_matches (w : Word) (m : String) (op n : Nibble) :
    (w &&& (nRow m op n).mask == (nRow m op n).value) = ((fieldsOf w).op == op && (fieldsOf w).n == n) := by
  have hmask : w &&& 0xF00F = (fieldsOf w).op ++ (0 : Byte) ++ (fieldsOf w).n := by
    rw [← wordXYN_maskN (fieldsOf w).op (fieldsOf w).x (fieldsOf w).y, wordXYN_fieldsOf]
  rw [nRow, hmask, append_beq_append, append_beq_append, beq_self_eq_true, Bool.and_true]

theorem kkRow_matches (w : Word) (m : String) (op : Nibble) (kk : Byte) :
    (w &&& (kkRow m op kk).mask == (kkRow m op kk).value) = ((fieldsOf w).op == op && (fieldsOf w).kk == kk) := by
  have hmask : w &&& 0xF0FF = (fieldsOf w).op ++ (0 : Nibble) ++ (fieldsOf w).kk := by
    rw [← wordXKK_maskKK (fieldsOf w).op (fieldsOf w).x, wordXKK_fieldsOf]
  rw [kkRow, hmask, append_beq_append, append_beq_append, beq_self_eq_true, Bool.and_true]

/-- The mnemonic of the first matching row, a row at a time. -/
theorem map_find?_cons (p : Machine.OpcodeRow → Bool) (r : Machine.OpcodeRow) (l : List Machine.OpcodeRow) :
    ((r :: l).find? p).map Machine.OpcodeRow.mnemonic =
      if p r = true then some r.mnemonic else (l.find? p).map Machine.OpcodeRow.mnemonic := by
  rw [List.find?_cons]
  cases p r <;> rfl

/-- Settles O4, by the families of the decoder: in the map only the rows of the family match, and their selectors stand
in the order in which the decoder tests them. -/
theorem dispatchFollowsOpcodeMap : Obligations.DispatchFollowsOpcodeMap := by
  intro w
  have hfam : Family (fieldsOf w) (fieldsOf w).op (decodeWord w) := family_decodeFields (fieldsOf w)
  rw [opcodeMap_eq]
  simp only [map_find?_cons, opRow_matches, nRow_matches, kkRow_matches]
  generalize (fieldsOf w).op = op at hfam ⊢
  generalize decodeWord w = i at hfam
  cases hfam with
  | family0 => simp [decodeFamily0, apply_ite Machine.mnemonicOf, apply_ite some, opRow, kkRow]; rfl
  | family8 => simp [decodeFamily8, apply_ite Machine.mnemonicOf, apply_ite some, opRow, nRow]; rfl
  | familyE => simp [decodeFamilyE, apply_ite Machine.mnemonicOf, apply_ite some, opRow, kkRow]; rfl
  | familyF => simp [decodeFamilyF, apply_ite Machine.mnemonicOf, apply_ite some, opRow, kkRow]; rfl
  | _ => rfl

/-! ## The unrecognised words -/

theorem reservedRow_decodeFamily0 (f : Fields) : Machine.reservedRow (decodeFamily0 f) = false := by
  unfold decodeFamily0
  split_ifs <;> rfl

theorem reservedRow_decodeFamily8 (f : Fields) :
    Machine.reservedRow (decodeFamily8 f) = !family8Selectors.contains f.n := by
  unfold decodeFamily8
  split_ifs <;> simp [Machine.reservedRow, family8Selectors, *]

theorem reservedRow_decodeFamilyE (f : Fields) :
    Machine.reservedRow (decodeFamilyE f) = !familyESelectors.contains f.kk := by
  unfold decodeFamilyE
  split_ifs <;> simp [Machine.reservedRow, familyESelectors, *]

theorem reservedRow_decodeFamilyF (f : Fields) :
    Machine.reservedRow (decodeFamilyF f) = !familyFSelectors.contains f.kk := by
  unfold decodeFamilyF
  split_ifs <;> simp [Machine.reservedRow, familyFSelectors, *]

theorem op_toNat (w : Word) : (fieldsOf w).op.toNat = w.toNat / 4096 := by
  have hlt : w.toNat < 2 ^ 16 := w.isLt
  simp only [fieldsOf, BitVec.extractLsb'_toNat, Nat.shiftRight_eq_div_pow]
  omega

theorem n_toNat (w : Word) : (fieldsOf w).n.toNat = w.toNat % 16 := by
  simp [fieldsOf, BitVec.extractLsb'_toNat]

theorem kk_toNat (w : Word) : (fieldsOf w).kk.toNat = w.toNat % 256 := by
  simp [fieldsOf, BitVec.extractLsb'_toNat]

/-- The selectors of 30_encoding.md R81 for family 8 are the ones that R79 leaves, over the 16 digits. -/
theorem contains_unrecognised8 : ∀ n : Nibble,
    [0x8, 0x9, 0xA, 0xB, 0xC, 0xD, 0xF].contains n.toNat = !family8Selectors.contains n := by
  decide

theorem toNat_beq_toNat {n : Nat} (a b : BitVec n) : (a.toNat == b.toNat) = (a == b) := by
  rw [Bool.eq_iff_iff, beq_iff_eq, beq_iff_eq, BitVec.toNat_inj]

theorem contains_map_toNat (l : List Byte) (kk : Byte) : (l.map BitVec.toNat).contains kk.toNat = l.contains kk := by
  induction l with
  | nil => rfl
  | cons b l ih => simp only [List.map_cons, List.contains_cons, ih, toNat_beq_toNat]

/-- The list of 30_encoding.md R81 by the fields of the word. -/
theorem unrecognisedWord_eq (w : Word) : Machine.unrecognisedWord w =
    (((fieldsOf w).op == 0x8#4 && !family8Selectors.contains (fieldsOf w).n) ||
     ((fieldsOf w).op == 0xE#4 && !familyESelectors.contains (fieldsOf w).kk) ||
     ((fieldsOf w).op == 0xF#4 && !familyFSelectors.contains (fieldsOf w).kk)) := by
  have hop (k : Nibble) : (w.toNat / 4096 == k.toNat) = ((fieldsOf w).op == k) := by
    rw [← op_toNat, toNat_beq_toNat]
  rw [← contains_unrecognised8, ← contains_map_toNat, ← contains_map_toNat, ← hop, ← hop, ← hop, n_toNat, kk_toNat]
  rfl

theorem unrecognisedWord_eq_reservedRow (w : Word) :
    Machine.unrecognisedWord w = Machine.reservedRow (decodeWord w) := by
  have hfam : Family (fieldsOf w) (fieldsOf w).op (decodeWord w) := family_decodeFields (fieldsOf w)
  rw [unrecognisedWord_eq]
  generalize (fieldsOf w).op = op at hfam ⊢
  generalize decodeWord w = i at hfam
  cases hfam with
  | family0 => exact (reservedRow_decodeFamily0 _).symm
  | family8 => simp [reservedRow_decodeFamily8]
  | familyE => simp [reservedRow_decodeFamilyE]
  | familyF => simp [reservedRow_decodeFamilyF]
  | _ => rfl

/-- Settles O1: the decoder evaluated on the twelve words. -/
theorem specWordsDecode : Obligations.SpecWordsDecode := by
  unfold Obligations.SpecWordsDecode
  decide

end Sys2Proof
end

section
/-! PROOFS. The step (30_encoding.md R74 to R77, 60_exceptions.md R213): what a step event does in each of its four
cases, what a run of stored bytes reads as, and the statements on the latched fault, the fetch, the decoded instruction
and the placed word. -/

namespace Sys2Proof.Machine

/-- The state with the pulse display_updated put to 0, on which the step event works (10_state.md R38). -/
def State.pulseLow (s : State) : State := { s with displayUpdated := false }

/-! ## The four cases of a step event -/

theorem stepEvent_of_fault {s : State} {r : FaultRecord} (h : s.fault = some r) : s.stepEvent = .next s.pulseLow := by
  simp only [State.stepEvent, h, State.pulseLow]

theorem stepEvent_of_awaitingKey {s : State} (hf : s.fault = none) (hm : s.mode = .awaitingKey) :
    s.stepEvent = .next s.pulseLow.pollKeys := by
  simp only [State.stepEvent, hf, hm, State.pulseLow]

theorem stepEvent_of_running {s : State} (hf : s.fault = none) (hm : s.mode = .running) :
    s.stepEvent = s.pulseLow.runInstruction := by
  simp only [State.stepEvent, hf, hm, State.pulseLow]

theorem fetchWord_of_le {s : State} (hpc : s.pc.toNat ≤ 4094) :
    s.fetchWord = .ok (s.mem.read s.pc.toNat ++ s.mem.read (s.pc.toNat + 1)) := by
  obtain ⟨-, hfetch⟩ | ⟨hgt, -⟩ := fetchWord_cases s
  · exact hfetch
  · omega

theorem runInstruction_of_le {s : State} (hpc : s.pc.toNat ≤ 4094) :
    s.runInstruction = exec (decodeWord (s.mem.read s.pc.toNat ++ s.mem.read (s.pc.toNat + 1))) s := by
  simp only [State.runInstruction, fetchWord_of_le hpc]

theorem runInstruction_of_gt {s : State} (hpc : 4094 < s.pc.toNat) :
    s.runInstruction = .next (s.raise .outOfBounds (max s.pc.toNat 4096) 0) := by
  obtain ⟨hle, -⟩ | ⟨-, hfetch⟩ := fetchWord_cases s
  · omega
  · simp only [State.runInstruction, hfetch]

/-- With no fault, in mode Running and with a word to fetch, a step is the ticks due, then the decoded instruction, then
the lines for the next step. -/
theorem step_of_fetch {s : State} (hf : s.fault = none) (hm : s.mode = .running) (hpc : s.pc.toNat ≤ 4094) :
    step s = nextLines (exec (decodeWord (s.mem.read s.pc.toNat ++ s.mem.read (s.pc.toNat + 1)))
      (State.runTicks s.input.ticks s).pulseLow) := by
  rw [step_eq, stepEvent_of_running (by exact hf) (by exact hm), runInstruction_of_le (by exact hpc)]
  rfl

/-! ## Stopped cores -/

/-- Driving new lines writes the lines only. -/
theorem nextInput_frame (s : State) :
    s.nextInput =
      { s with input := s.nextInput.input, script := s.nextInput.script, draws := s.nextInput.draws } := by
  unfold State.nextInput
  split <;> rfl

/-- Settles O36: the step event leaves the latched core alone, so only the ticks before it and the lines after it
act. -/
theorem stepWithLatchedFaultDoesNothing : Obligations.StepWithLatchedFaultDoesNothing := by
  intro s r hr
  have hstep : step s = .next (State.runTicks s.input.ticks s).pulseLow.nextInput := by
    rw [step_eq, stepEvent_of_fault (r := r) (by exact hr)]
    rfl
  refine ⟨_, hstep, ?fault, ?DT, ?ST, ?frame⟩
  case fault => rw [nextInput_fault]; exact hr
  case DT => rw [nextInput_DT]; exact countdown_toNat _ _
  case ST => rw [nextInput_ST]; exact countdown_toNat _ _
  case frame =>
    rw [nextInput_DT, nextInput_ST]
    exact nextInput_frame _

/-- Settles O37: the fetch raises OutOfBounds, and only the ticks before it and the lines after it act besides. -/
theorem fetchAboveMemoryFaults : Obligations.FetchAboveMemoryFaults := by
  intro s hf hm hpc
  have hevent : (State.runTicks s.input.ticks s).stepEvent =
      .next ((State.runTicks s.input.ticks s).pulseLow.raise .outOfBounds (max s.pc.toNat 4096) 0) :=
    (stepEvent_of_running (s := State.runTicks s.input.ticks s) hf hm).trans (runInstruction_of_gt hpc)
  refine ⟨_, by rw [step_eq, hevent]; rfl, ?fault, ?DT, ?ST, ?frame⟩
  case fault => exact nextInput_fault _
  case DT => rw [nextInput_DT]; exact countdown_toNat _ _
  case ST => rw [nextInput_ST]; exact countdown_toNat _ _
  case frame =>
    rw [nextInput_DT, nextInput_ST, nextInput_fault]
    exact nextInput_frame _

/-- Settles O41, by induction on the number of steps: each step keeps the latch and all but the timers, the pulse and
the lines. -/
theorem faultedCoreStaysStopped : Obligations.FaultedCoreStaysStopped := by
  intro k
  induction k with
  | zero =>
    intro s t r hr hrun
    obtain rfl : s = t := by simpa only [runSteps, Host.Outcome.next.injEq] using hrun
    exact ⟨hr, rfl⟩
  | succ k ih =>
    intro s t r hr hrun
    obtain ⟨u, hstep, hu, -, -, hframe⟩ := stepWithLatchedFaultDoesNothing s r hr
    rw [runSteps_succ k hstep] at hrun
    obtain ⟨ht, hkeep⟩ := ih u t r hu hrun
    refine ⟨ht, ?_⟩
    rw [hframe] at hkeep
    exact hkeep

/-! ## The decoded instruction -/

/-- Settles O35: two bytes at pc decode to the instruction of the word they make. -/
theorem stepRunsDecodedInstruction : Obligations.StepRunsDecodedInstruction := by
  intro s i hf hm hpc hdecode
  obtain rfl : decodeWord (s.mem.read s.pc.toNat ++ s.mem.read (s.pc.toNat + 1)) = i := by
    simpa only [decode, wordOfBytes, Except.ok.injEq, Prod.mk.injEq, and_true] using hdecode
  exact step_of_fetch hf hm hpc

/-! ## Bytes in memory -/

/-- A stored byte reads back. -/
theorem read_writeBytes_at {addr k : Nat} {bs : List Byte} {m : Memory} {b : Byte} (hwf : m.wf = true)
    (hle : addr + bs.length ≤ 4096) (hk : bs[k]? = some b) : (m.writeBytes addr bs).read (addr + k) = b := by
  rw [read_writeBytes hwf hle, if_pos (by omega), Nat.add_sub_cancel_left, hk]
  rfl

/-- A byte outside the run reads as before. -/
theorem read_writeBytes_outside {addr a : Nat} {bs : List Byte} {m : Memory} (hwf : m.wf = true)
    (hle : addr + bs.length ≤ 4096) (ha : a < addr ∨ addr + bs.length ≤ a) :
    (m.writeBytes addr bs).read a = m.read a := by
  rw [read_writeBytes hwf hle]
  split_ifs with h
  · rw [List.getElem?_eq_none (by omega)]
    rfl
  · rfl

theorem tableWord_toNat (w : Word) : tableWord 16 w.toNat = w := by
  rw [tableWord, Nat.mod_eq_of_lt w.isLt, BitVec.ofNat_toNat, BitVec.setWidth_eq]

/-- With a word to fetch at pc, placing a word stores its two bytes there, sets mode Running and clears the latch. -/
theorem withFetchWord_of_le {s : State} (hpc : s.pc.toNat ≤ 4094) (w : Word) :
    s.withFetchWord 16 w.toNat =
      { s with mem := s.mem.writeBytes s.pc.toNat (bytesOfWord w), mode := .running, fault := none } := by
  have hlen : (bytesOfWord w).length = 2 := rfl
  obtain ⟨-, hspan⟩ | ⟨⟨-, hlt⟩, -⟩ := writeSpan_cases s.mem s.pc.toNat (bytesOfWord w)
  · simp only [State.withFetchWord, State.placeWord, tableWord_toNat, hspan]
  · omega

/-- Settles O54: the two stored bytes are what the fetch reads. -/
theorem placedWordIsRunNext : Obligations.PlacedWordIsRunNext := by
  intro s w hwf hpc
  rw [withFetchWord_of_le hpc]
  have hle : s.pc.toNat + (bytesOfWord w).length ≤ 4096 := Nat.add_le_add_right hpc 2
  have hhi : (s.mem.writeBytes s.pc.toNat (bytesOfWord w)).read s.pc.toNat = w.extractLsb' 8 8 :=
    read_writeBytes_at (k := 0) hwf hle rfl
  have hlo : (s.mem.writeBytes s.pc.toNat (bytesOfWord w)).read (s.pc.toNat + 1) = w.extractLsb' 0 8 :=
    read_writeBytes_at (k := 1) hwf hle rfl
  have hword : w.extractLsb' 8 8 ++ w.extractLsb' 0 8 = w := wordOfBytes_bytesOfWord w
  rw [step_of_fetch (by rfl) (by rfl) (by exact hpc), hhi, hlo, hword]
  rfl

end Sys2Proof.Machine
end

section
/-! PROOFS. The stack and the register skips (40_control.md R102, R104, R107, R108): what 2nnn and 00EE do with room on
the stack and without, and the statements on them, on Cxkk (41_alu.md R132) and on the reserved words (30_encoding.md
R81). -/

namespace Sys2Proof.Machine

/-! ## 2nnn and 00EE, case by case -/

theorem exec_call_of_lt {s : State} (h : s.sp.val < 16) (nnn : Imm12) :
    exec (.call nnn) s = .next { s with
      stack := s.stack.set s.sp.val (s.pc + 2) h, sp := ⟨s.sp.val + 1, by omega⟩, pc := zext16 nnn } := by
  simp only [exec, execCall, State.push?, advancePc_pc, dif_pos h]
  rfl

theorem exec_call_of_full {s : State} (h : s.sp.val = 16) (nnn : Imm12) :
    exec (.call nnn) s = .next (s.raise .stackOverflow 16 (encode (.call nnn))) := by
  simp only [exec, execCall, State.push?, dif_neg (show ¬ s.sp.val < 16 by omega)]

/-- At this hardware's switch a row is selected whatever its ignored digit is (30_encoding.md R80). -/
theorem rowSelected_any (ign : Nibble) : rowSelected Config.decodeFullPattern ign = true := rfl

theorem exec_ret_of_pos {s : State} (h : 0 < s.sp.val) (ign : Nibble) :
    exec (.ret ign) s = .next { s with sp := ⟨s.sp.val - 1, by omega⟩, pc := s.stack[s.sp.val - 1] } := by
  simp only [exec, execRet, rowSelected_any, State.pop?, dif_pos h]
  rfl

theorem exec_ret_of_empty {s : State} (h : s.sp.val = 0) (ign : Nibble) :
    exec (.ret ign) s = .next (s.raise .stackUnderflow 0 (encode (.ret ign))) := by
  simp only [exec, execRet, rowSelected_any, State.pop?, dif_neg (show ¬ 0 < s.sp.val by omega), if_true]

/-! ## The statements -/

/-- Settles O14. -/
theorem callPushesOrOverflows : Obligations.CallPushesOrOverflows := by
  intro s nnn
  refine ⟨fun h => ⟨_, exec_call_of_lt h nnn, zext16_toNat nnn, rfl, fun k => ?slot, rfl, fun _ => rfl⟩,
    fun h => exec_call_of_full h nnn⟩
  case slot => simp only [Vector.getElem_set, eq_comm]

/-- Settles O15. -/
theorem returnPopsOrUnderflows : Obligations.ReturnPopsOrUnderflows := by
  intro s ign
  refine ⟨fun h => ⟨_, exec_ret_of_pos h ign, ?sp, fun k hk => ?pc, rfl, fun _ => rfl⟩,
    fun h => exec_ret_of_empty h ign⟩
  case sp => exact Nat.sub_add_cancel h
  case pc => simp only [← hk, Nat.add_sub_cancel]

/-- Settles O16: the return pops the slot that the call wrote. -/
theorem callThenReturnRestores : Obligations.CallThenReturnRestores := by
  intro s nnn ign h
  refine ⟨_, _, exec_call_of_lt h nnn, exec_ret_of_pos (Nat.succ_pos s.sp.val) ign, ?pc, ?sp, fun k hk => ?slot, ?frame⟩
  case pc => exact Vector.getElem_set_self h
  case sp => exact Fin.ext (Nat.add_sub_cancel s.sp.val 1)
  case slot => exact Vector.getElem_set_ne h k.isLt hk.symm
  case frame => rfl

/-- Settles O13: both are the skip operation, on `==` and on `!=`, whatever the ignored digit is. -/
theorem registerSkips : Obligations.RegisterSkips := by
  intro s x y ign
  refine ⟨wordXYN_mask 0x5 (ofReg x) (ofReg y) ign, wordXYN_mask 0x9 (ofReg x) (ofReg y) ign, ?seReg, ?sneReg⟩
  case seReg => exact ⟨s.skipIf (s.reg x == s.reg y), rfl, skipIf_pc_of_iff beq_iff_eq s, regFrame_skipIf _ s⟩
  case sneReg => exact ⟨s.skipIf (s.reg x != s.reg y), rfl, skipIf_pc_of_iff bne_iff_ne s, regFrame_skipIf _ s⟩

/-- Settles O10: a bit of Vx is the random bit and the mask bit, so no bit outside the mask is set. -/
theorem randomByteIsMasked : Obligations.RandomByteIsMasked := by
  intro s x kk
  obtain ⟨t, hexec, hres, hpc, hframe⟩ := setReg_outcome (i := .rnd x kk) (s := s) rfl
  refine ⟨wordXKK_mask 0xC (ofReg x) kk, t, hexec, fun k _ => ?bits, ?mask, hpc, hframe⟩
  case bits => rw [hres, BitVec.getLsbD_and]
  case mask => rw [hres, BitVec.and_assoc, BitVec.and_not_self]; exact BitVec.and_zero

/-- Settles O33: at this hardware's switch each of the three only advances pc. -/
theorem unrecognisedWordsAreNoops : Obligations.UnrecognisedWordsAreNoops := by
  intro s x y n kk
  exact ⟨⟨s.advancePc, rfl, advancePc_pc s, regFrame_advancePc s⟩,
    ⟨s.advancePc, rfl, advancePc_pc s, regFrame_advancePc s⟩,
    ⟨s.advancePc, rfl, advancePc_pc s, regFrame_advancePc s⟩⟩

end Sys2Proof.Machine
end

section
/-! PROOFS. The memory transfers (42_index_memory.md R150, R154 to R157, 60_exceptions.md R214): what Fx33, Fx55 and
Fx65 do inside the address space and past its end, and the statements on them. -/

namespace Sys2Proof.Machine

/-! ## The transfers, case by case -/

theorem storeAtI_of_le {s : State} {bs : List Byte} (h : s.base + bs.length ≤ 4096) (w : Word) :
    s.storeAtI bs w = { s.advancePc with mem := s.mem.writeBytes s.base bs } := by
  obtain ⟨-, heq⟩ | ⟨⟨-, hlt⟩, -⟩ := storeAtI_cases s bs w
  · exact heq
  · omega

theorem storeAtI_of_gt {s : State} {bs : List Byte} (hbs : bs ≠ []) (h : 4096 < s.base + bs.length) (w : Word) :
    s.storeAtI bs w = s.raise .outOfBounds (max s.base 4096) w := by
  obtain ⟨hnil | hle, -⟩ | ⟨-, heq⟩ := storeAtI_cases s bs w
  · exact absurd hnil hbs
  · omega
  · exact heq

theorem exec_ldB_of_le {s : State} (h : s.base + 2 ≤ 4095) (x : Reg) :
    exec (.ldB x) s = .next { s.advancePc with mem := s.mem.writeBytes s.base (decimalDigits (s.reg x)) } :=
  congrArg Host.Outcome.next (storeAtI_of_le (by rw [length_decimalDigits]; omega) _)

theorem exec_ldB_of_gt {s : State} (h : 4095 < s.base + 2) (x : Reg) :
    exec (.ldB x) s = .next (s.raise .outOfBounds (max s.base 4096) (encode (.ldB x))) :=
  congrArg Host.Outcome.next
    (storeAtI_of_gt (bs := decimalDigits (s.reg x)) (List.cons_ne_nil _ _) (by rw [length_decimalDigits]; omega) _)

theorem exec_storeRegs_of_le {s : State} {x : Reg} (h : s.base + x.val ≤ 4095) :
    exec (.storeRegs x) s = .next { s.advancePc with mem := s.mem.writeBytes s.base (s.firstRegs x) } :=
  congrArg Host.Outcome.next (storeAtI_of_le (by rw [length_firstRegs]; omega) _)

theorem exec_storeRegs_of_gt {s : State} {x : Reg} (h : 4095 < s.base + x.val) :
    exec (.storeRegs x) s = .next (s.raise .outOfBounds (max s.base 4096) (encode (.storeRegs x))) :=
  congrArg Host.Outcome.next
    (storeAtI_of_gt (List.ne_nil_of_length_pos (by rw [length_firstRegs]; omega)) (by rw [length_firstRegs]; omega) _)

theorem exec_loadRegs_of_le {s : State} {x : Reg} (h : s.base + x.val ≤ 4095) :
    exec (.loadRegs x) s =
      .next { s.advancePc with V := loadFrom 0 (s.mem.readBytes s.base (x.val + 1)) s.V } := by
  obtain ⟨-, hspan⟩ | ⟨⟨-, hlt⟩, -⟩ := readSpan_cases s.mem s.base (x.val + 1)
  · simp only [exec, execLoadRegs, hspan]
  · omega

theorem exec_loadRegs_of_gt {s : State} {x : Reg} (h : 4095 < s.base + x.val) :
    exec (.loadRegs x) s = .next (s.raise .outOfBounds (max s.base 4096) (encode (.loadRegs x))) := by
  obtain ⟨hle, -⟩ | ⟨-, hspan⟩ := readSpan_cases s.mem s.base (x.val + 1)
  · omega
  · simp only [exec, execLoadRegs, hspan]

/-! ## Stored and loaded bytes -/

theorem storedRegs_read {s : State} {x r : Reg} (hwf : s.mem.wf = true) (h : s.base + x.val ≤ 4095) (hr : r ≤ x) :
    (s.mem.writeBytes s.base (s.firstRegs x)).read (s.base + r.val) = s.reg r :=
  read_writeBytes_at hwf (by rw [length_firstRegs]; omega) (getElem?_firstRegs s x r.val hr)

/-- Loading x + 1 registers from register 0 on: the ones up to x are the bytes, the ones above x as before. -/
theorem getElem_loadFrom_readBytes (m : Memory) (addr : Nat) (x r : Reg) (v : Vector Byte 16) :
    (loadFrom 0 (m.readBytes addr (x.val + 1)) v)[r.val] = if r ≤ x then m.read (addr + r.val) else v[r.val] := by
  rw [getElem_loadFrom _ _ _ _ r.isLt, if_pos (Nat.zero_le _), Nat.sub_zero]
  simp only [Fin.le_def]
  split_ifs with hr
  · rw [getElem?_readBytes m addr (x.val + 1) r.val (by omega)]
    rfl
  · rw [List.getElem?_eq_none (by rw [length_readBytes]; omega)]
    rfl

/-! ## The statements -/

/-- Settles O18: the three bytes are the quotients and remainders, which fit a byte. -/
theorem decimalDigitsStored : Obligations.DecimalDigitsStored := by
  intro s x hwf hbase
  have hle : s.base + (decimalDigits (s.reg x)).length ≤ 4096 := by rw [length_decimalDigits]; omega
  have hlt : (s.reg x).toNat < 2 ^ 8 := (s.reg x).isLt
  have hdigit (k d : Nat) (hd : d < 2 ^ 8) (hk : (decimalDigits (s.reg x))[k]? = some (BitVec.ofNat 8 d)) :
      ((s.mem.writeBytes s.base (decimalDigits (s.reg x))).read (s.base + k)).toNat = d := by
    rw [read_writeBytes_at hwf hle hk, BitVec.toNat_ofNat, Nat.mod_eq_of_lt hd]
  exact ⟨_, exec_ldB_of_le (by omega) x, hdigit 0 _ (by omega) rfl, hdigit 1 _ (by omega) rfl,
    hdigit 2 _ (by omega) rfl, fun a ha => read_writeBytes_outside hwf hle ha, rfl, rfl⟩

/-- Settles O19. -/
theorem registersStored : Obligations.RegistersStored := by
  intro s x hwf hbase
  have hlen : (s.firstRegs x).length = x.val + 1 := length_firstRegs s x
  refine ⟨_, exec_storeRegs_of_le hbase, fun r hr => storedRegs_read hwf hbase hr, fun a ha => ?outside, rfl, rfl⟩
  case outside => exact read_writeBytes_outside hwf (by omega) (by rwa [hlen])

/-- Settles O20. -/
theorem registersLoaded : Obligations.RegistersLoaded := by
  intro s x hbase
  refine ⟨_, exec_loadRegs_of_le hbase, fun r hr => ?loaded, fun r hr => ?kept, rfl, rfl, fun _ => rfl⟩
  case loaded => exact (getElem_loadFrom_readBytes s.mem s.base x r s.V).trans (if_pos hr)
  case kept => exact (getElem_loadFrom_readBytes s.mem s.base x r s.V).trans (if_neg (not_le.mpr hr))

/-- Settles O21: neither transfer changes I, so the load reads where the store wrote. -/
theorem storedRegistersLoadBack : Obligations.StoredRegistersLoadBack := by
  intro s x v hwf hbase
  refine ⟨_, _, exec_storeRegs_of_le hbase, exec_loadRegs_of_le hbase, fun r hr => ?_, rfl⟩
  exact ((getElem_loadFrom_readBytes _ s.base x r v).trans (if_pos hr)).trans (storedRegs_read hwf hbase hr)

/-- Settles O23: pc of the next fetch is the address that V0 was stored at, and V1 follows it. -/
theorem fetchSeesStores : Obligations.FetchSeesStores := by
  intro s x hwf hpc hx hbase
  have hnext : (s.pc + 2).toNat = s.base := by
    have hlt : s.pc.toNat + 2 < 2 ^ 16 := by omega
    rw [BitVec.toNat_add, hpc]
    exact Nat.mod_eq_of_lt hlt
  have hhi : (s.mem.writeBytes s.base (s.firstRegs x)).read s.base = s.reg 0 :=
    storedRegs_read hwf hbase (Fin.zero_le x)
  have hlo : (s.mem.writeBytes s.base (s.firstRegs x)).read (s.base + 1) = s.reg 1 :=
    storedRegs_read (r := 1) hwf hbase hx
  have hle : (s.pc + 2).toNat ≤ 4094 := by omega
  refine ⟨_, exec_storeRegs_of_le hbase, (fetchWord_of_le (by exact hle)).trans ?_⟩
  rw [← hhi, ← hlo, ← hnext]
  rfl

end Sys2Proof.Machine
end

section
/-! PROOFS. The display (43_display.md R171 to R176): the drawn rows pixel by pixel, what Dxyn does with its rows inside
the address space and past its end, and the statements on 00E0, Dxyn and the accesses past 4095. -/

namespace Sys2Proof.Machine

/-- Settles O24. -/
theorem clearScreenClearsEveryPixel : Obligations.ClearScreenClearsEveryPixel := by
  intro s ign
  refine ⟨{ s.advancePc.pulseDisplay with fb := Display.blank }, rfl, fun r c => ?blank, rfl, rfl, rfl, fun _ => rfl⟩
  case blank => exact (congrArg (BitVec.getLsbD · c) (row_blank r)).trans BitVec.getLsbD_zero

/-! ## Sprite bits -/

/-- In its k-th visible row a sprite is its k-th byte, placed. -/
theorem spriteBit_row (s : State) {x0 y0 rows k c : Nat} (hk : k < rows) (hc : c < 64) :
    spriteBit s x0 y0 rows (y0 + k) c = (spriteMask (s.mem.read (s.base + k)) x0).getLsbD c := by
  have hcol : decide (c < x0 + 8) = decide (c - x0 < 8) := decide_eq_decide.mpr (by omega)
  rw [getLsbD_spriteMask _ _ _ hc, spriteBit, hcol, Nat.add_sub_cancel_left, decide_eq_true (Nat.le_add_right y0 k),
    decide_eq_true (Nat.add_lt_add_left hk y0), Bool.true_and, Bool.true_and]

theorem spriteBit_outside (s : State) {x0 y0 rows r c : Nat} (h : r < y0 ∨ y0 + rows ≤ r) :
    spriteBit s x0 y0 rows r c = false := by
  have hrow : (decide (y0 ≤ r) && decide (r < y0 + rows)) = false := by
    rw [← Bool.decide_and, decide_eq_false_iff_not]
    omega
  rw [spriteBit, hrow, Bool.false_and, Bool.false_and, Bool.false_and]

/-- A sprite bit stands in a visible row. -/
theorem exists_row_of_spriteBit {s : State} {x0 y0 rows r c : Nat} (h : spriteBit s x0 y0 rows r c = true) :
    ∃ k < rows, r = y0 + k := by
  by_contra hno
  have hout : r < y0 ∨ y0 + rows ≤ r := by
    by_contra hin
    exact hno ⟨r - y0, by omega, by omega⟩
  rw [spriteBit_outside s hout] at h
  cases h

/-! ## Drawing, pixel by pixel -/

/-- The bytes of the visible rows, drawn, XOR every pixel with the sprite bit that falls on it. -/
theorem pixel_draw_readBytes (s : State) {x0 y0 rows r c : Nat} (hrows : y0 + rows ≤ 32) (hc : c < 64) :
    Display.pixel (s.fb.draw x0 y0 (s.mem.readBytes s.base rows)).1 r c =
      (s.fb.pixel r c ^^ spriteBit s x0 y0 rows r c) := by
  unfold Display.pixel
  rw [row_draw _ _ _ _ _ (by rwa [length_readBytes]), BitVec.getLsbD_xor]
  congr 1
  by_cases hin : y0 ≤ r ∧ r < y0 + rows
  · obtain ⟨k, rfl⟩ : ∃ k, r = y0 + k := ⟨r - y0, by omega⟩
    have hk : k < rows := by omega
    rw [spriteBit_row s hk hc, if_pos hin.1, Nat.add_sub_cancel_left, getElem?_readBytes _ _ _ _ hk]
    rfl
  · rw [spriteBit_outside s (by omega)]
    split_ifs with hle
    · rw [List.getElem?_eq_none (by rw [length_readBytes]; omega)]
      exact BitVec.getLsbD_zero
    · exact BitVec.getLsbD_zero

theorem ne_zero_iff_exists_getLsbD {n : Nat} (a : BitVec n) : a ≠ 0 ↔ ∃ i < n, a.getLsbD i = true := by
  constructor
  · intro hne
    by_contra hno
    refine hne (BitVec.eq_of_getLsbD_eq fun i hi => ?_)
    have hbit : a.getLsbD i = false := Bool.eq_false_iff.mpr fun hbit => hno ⟨i, hi, hbit⟩
    exact hbit.trans BitVec.getLsbD_zero.symm
  · rintro ⟨i, -, hbit⟩ rfl
    simp at hbit

/-- The collision flag of the visible rows: a set pixel of the screen met a sprite bit. -/
theorem collision_draw_readBytes (s : State) {x0 y0 rows : Nat} (hrows : y0 + rows ≤ 32) :
    (s.fb.draw x0 y0 (s.mem.readBytes s.base rows)).2 = true ↔
      ∃ r < 32, ∃ c < 64, s.fb.pixel r c = true ∧ spriteBit s x0 y0 rows r c = true := by
  rw [collision_draw _ _ _ _ (by rwa [length_readBytes])]
  constructor
  · rintro ⟨k, b, hb, hmeet⟩
    have hk : k < rows := by
      obtain ⟨hlt, -⟩ := List.getElem?_eq_some_iff.mp hb
      rwa [length_readBytes] at hlt
    obtain rfl : s.mem.read (s.base + k) = b := Option.some.inj ((getElem?_readBytes _ _ _ _ hk).symm.trans hb)
    obtain ⟨c, hc, hbit⟩ := (ne_zero_iff_exists_getLsbD _).mp hmeet
    rw [BitVec.getLsbD_and, Bool.and_eq_true] at hbit
    exact ⟨y0 + k, by omega, c, hc, hbit.1, (spriteBit_row s hk hc).trans hbit.2⟩
  · rintro ⟨r, -, c, hc, hpixel, hsprite⟩
    obtain ⟨k, hk, rfl⟩ := exists_row_of_spriteBit hsprite
    refine ⟨k, _, getElem?_readBytes _ _ _ _ hk, (ne_zero_iff_exists_getLsbD _).mpr ⟨c, hc, ?_⟩⟩
    rw [BitVec.getLsbD_and, ← spriteBit_row s hk hc, hsprite, Bool.and_true]
    exact hpixel

/-! ## Dxyn, case by case -/

/-- What Dxyn leaves when every byte of its visible rows exists (43_display.md R172). -/
def State.drawn (s : State) (x y : Reg) (n : Nibble) : State :=
  let y0 := startRow (s.reg y)
  let d := s.fb.draw (startColumn (s.reg x)) y0 (s.mem.readBytes s.base (visibleRows n y0))
  ({ s with fb := d.1 }.setReg regVF (flagByte d.2)).advancePc.pulseDisplay

theorem exec_drw_of_le {s : State} {x y : Reg} {n : Nibble}
    (h : visibleRows n (startRow (s.reg y)) = 0 ∨ s.base + visibleRows n (startRow (s.reg y)) ≤ 4096) :
    exec (.drw x y n) s = .next (s.drawn x y n) := by
  obtain ⟨-, hspan⟩ | ⟨⟨hne, hlt⟩, -⟩ := readSpan_cases s.mem s.base (visibleRows n (startRow (s.reg y)))
  · simp only [exec, execDrw, hspan, State.drawn]
  · omega

theorem exec_drw_of_gt {s : State} {x y : Reg} {n : Nibble} (hne : visibleRows n (startRow (s.reg y)) ≠ 0)
    (h : 4096 < s.base + visibleRows n (startRow (s.reg y))) :
    exec (.drw x y n) s = .next (s.raise .outOfBounds (max s.base 4096) (encode (.drw x y n))) := by
  obtain ⟨hle, -⟩ | ⟨-, hspan⟩ := readSpan_cases s.mem s.base (visibleRows n (startRow (s.reg y)))
  · omega
  · simp only [exec, execDrw, hspan]

/-! ## The statements -/

theorem flagByte_eq_one (f : Bool) : flagByte f = 1 ↔ f = true := by cases f <;> decide

theorem flagByte_eq_zero_or_one (f : Bool) : flagByte f = 0 ∨ flagByte f = 1 := by cases f <;> decide

/-- Settles O25: the display and the flag are those of the visible rows, and the flag is the last write. -/
theorem drawXorsClippedSprite : Obligations.DrawXorsClippedSprite := by
  intro s x y n x0 y0 rows hx0 hy0 hrows hbound
  subst hx0 hy0 hrows
  have hrows : (s.reg y).toNat % 32 + min n.toNat (32 - (s.reg y).toNat % 32) ≤ 32 := by omega
  have hflag : (s.drawn x y n).reg 15 = flagByte (s.fb.draw ((s.reg x).toNat % 64) ((s.reg y).toNat % 32)
      (s.mem.readBytes s.base (min n.toNat (32 - (s.reg y).toNat % 32)))).2 := reg_setReg_self _ regVF _
  refine ⟨s.drawn x y n, exec_drw_of_le (by unfold visibleRows startRow; omega), fun r _ c hc => ?pixels, ?collision,
    ?flag, fun r hr => ?kept, rfl, rfl, rfl, fun _ => rfl⟩
  case pixels => exact pixel_draw_readBytes s hrows hc
  case collision => rw [hflag, flagByte_eq_one, collision_draw_readBytes s hrows]
  case flag => rw [hflag]; exact flagByte_eq_zero_or_one _
  case kept => exact reg_setReg_ne _ hr _

/-- The sprite bits depend on memory and I only. -/
theorem spriteBit_congr {s t : State} (hmem : t.mem = s.mem) (hI : t.I = s.I) (x0 y0 rows r c : Nat) :
    spriteBit t x0 y0 rows r c = spriteBit s x0 y0 rows r c := by
  simp only [spriteBit, State.base, hmem, hI]

/-- Settles O26: the second drawing XORs the same bits, and on a clear display its first pixels are those bits. -/
theorem drawTwiceRestoresDisplay : Obligations.DrawTwiceRestoresDisplay := by
  intro s x y n x0 y0 rows hx0 hy0 hrows hbound
  obtain ⟨t, hfirst, hpixels, -, -, -, -, -, hframe, -⟩ := drawXorsClippedSprite s x y n x0 y0 rows hx0 hy0 hrows hbound
  have hmem : t.mem = s.mem := by rw [hframe]
  have hI : t.I = s.I := by rw [hframe]
  have hbound' : rows = 0 ∨ ({ t with V := s.V } : State).base + rows - 1 ≤ 4095 := by
    rwa [show ({ t with V := s.V } : State).base = s.base from congrArg BitVec.toNat hI]
  obtain ⟨u, hsecond, hpixels', hcollision, -⟩ :=
    drawXorsClippedSprite { t with V := s.V } x y n x0 y0 rows hx0 hy0 hrows hbound'
  have hsame (r c : Nat) : spriteBit { t with V := s.V } x0 y0 rows r c = spriteBit s x0 y0 rows r c :=
    spriteBit_congr (t := { t with V := s.V }) hmem hI x0 y0 rows r c
  refine ⟨t, u, hfirst, hsecond, fun r hr c hc => ?restored, fun hclear ⟨r, hr, c, hc, hbit⟩ => ?collides⟩
  case restored =>
    rw [hpixels' r hr c hc, hsame, show Display.pixel ({ t with V := s.V } : State).fb r c = _ from hpixels r hr c hc,
      Bool.xor_assoc, Bool.xor_self, Bool.xor_false]
  case collides =>
    refine hcollision.mpr ⟨r, hr, c, hc, ?_, (hsame r c).trans hbit⟩
    exact (hpixels r hr c hc).trans (by rw [hclear r hr c hc, hbit]; rfl)

/-- Settles O22. -/
theorem outOfBoundsTransfersFault : Obligations.OutOfBoundsTransfersFault := by
  intro s x y n
  refine ⟨fun h => exec_ldB_of_gt h x, fun h => exec_storeRegs_of_gt h, fun h => exec_loadRegs_of_gt h,
    fun hpos h => exec_drw_of_gt (Nat.ne_of_gt hpos) ?_⟩
  unfold visibleRows startRow
  omega

end Sys2Proof.Machine
end

section
/-! PROOFS. Timers and keys (44_timer_key.md R191 to R206): ticks in a row, the key skips case by case, the poll, and
the statements on them. -/

namespace Sys2Proof.Machine

/-! ## Ticks -/

/-- Settles O28. -/
theorem tickDecrementsTimers : Obligations.TickDecrementsTimers := by
  intro s
  exact ⟨rfl, tickTimer_toNat s.DT, tickTimer_toNat s.ST, rfl⟩

theorem runTicks_eq_iterate (n : Nat) (s : State) : State.runTicks n s = State.tick^[n] s := by
  induction n generalizing s with
  | zero => exact runTicks_zero s
  | succ n ih => rw [runTicks_succ, ih, Function.iterate_succ_apply]

/-- Settles O29: j ticks take j from DT, not below 0. -/
theorem timerReadsBackAfterTicks : Obligations.TimerReadsBackAfterTicks := by
  intro s x y j
  refine ⟨{ s.advancePc with DT := s.reg y }, _, rfl, runTicks_eq_iterate j _, rfl, ?_⟩
  rw [reg_advancePc, reg_setReg_self, runTicks_DT, countdown_toNat]

/-! ## Key skips -/

theorem skipIfKey_of_le {s : State} {x : Reg} (h : (s.reg x).toNat ≤ 15) (wanted : Bool) (w : Word) :
    s.skipIfKey x wanted w = s.skipIf (s.keyDown (s.reg x).toNat == wanted) :=
  if_neg (Nat.not_lt.mpr h)

theorem skipIfKey_of_gt {s : State} {x : Reg} (h : (s.reg x).toNat > 15) (wanted : Bool) (w : Word) :
    s.skipIfKey x wanted w = s.raise .keyIndexOutOfRange (s.reg x).toNat w :=
  if_pos h

/-- What a key skip leaves for an index that names a key. -/
theorem skipIfKey_outcome {s : State} {x : Reg} (h : (s.reg x).toNat ≤ 15) (wanted : Bool) (w : Word) :
    (s.skipIfKey x wanted w).pc = s.pc + (if s.input.keys.getLsbD (s.reg x).toNat = wanted then 4 else 2) ∧
      RegFrame [] s (s.skipIfKey x wanted w) := by
  rw [skipIfKey_of_le h]
  exact ⟨skipIf_pc_of_iff beq_iff_eq s, regFrame_skipIf _ s⟩

/-- Settles O30. -/
theorem keySkips : Obligations.KeySkips := by
  intro s x
  exact ⟨fun h => ⟨⟨_, rfl, skipIfKey_outcome h true _⟩, ⟨_, rfl, skipIfKey_outcome h false _⟩⟩,
    fun h => ⟨congrArg Host.Outcome.next (skipIfKey_of_gt h true _),
      congrArg Host.Outcome.next (skipIfKey_of_gt h false _)⟩⟩

/-! ## The key wait -/

/-- Settles O31. -/
theorem keyWaitBegins : Obligations.KeyWaitBegins := by
  intro s x
  exact ⟨{ s.advancePc with mode := .awaitingKey, waitReg := x, keyPrev := s.input.keys }, rfl, rfl, rfl, rfl, rfl, rfl,
    fun _ => rfl, fun _ => rfl⟩

theorem getLsbD_freshKeys_iff (now prev : Keys) (k : Fin 16) :
    (freshKeys now prev).getLsbD k.val = true ↔ now.getLsbD k.val = true ∧ prev.getLsbD k.val = false := by
  rw [getLsbD_freshKeys _ _ _ k.isLt, Bool.and_eq_true, Bool.not_eq_true']

/-- A key that is set, with none set below it, is the lowest. -/
theorem lowestKey_eq_some {keys : Keys} {k : Reg} (hk : keys.getLsbD k.val = true)
    (hbelow : ∀ j : Reg, j < k → keys.getLsbD j.val ≠ true) : lowestKey keys = some k := by
  cases hlow : lowestKey keys with
  | none =>
    rw [lowestKey_none.mp hlow] at hk
    simp at hk
  | some j =>
    obtain ⟨hj, hjmin⟩ := lowestKey_some hlow
    rcases lt_trichotomy j k with hlt | rfl | hgt
    · exact absurd hj (hbelow j hlt)
    · rfl
    · rw [hjmin k hgt] at hk
      cases hk

theorem lowestKey_freshKeys_none {now prev : Keys}
    (h : ∀ k : Fin 16, ¬(now.getLsbD k.val = true ∧ prev.getLsbD k.val = false)) :
    lowestKey (freshKeys now prev) = none :=
  lowestKey_none.mpr (by
    by_contra hne
    obtain ⟨i, hi, hbit⟩ := (ne_zero_iff_exists_getLsbD _).mp hne
    exact h ⟨i, hi⟩ ((getLsbD_freshKeys_iff now prev ⟨i, hi⟩).mp hbit))

/-- Settles O32: the poll takes the lowest fresh key, if there is one. -/
theorem keyWaitPolls : Obligations.KeyWaitPolls := by
  intro s hf hm
  rw [stepEvent_of_awaitingKey hf hm]
  refine ⟨fun hnone => ?waits, fun k hdown hup hbelow => ?takes⟩
  case waits =>
    have hlow : lowestKey (freshKeys s.pulseLow.input.keys s.pulseLow.keyPrev) = none := lowestKey_freshKeys_none hnone
    rw [State.pollKeys, hlow]
    rfl
  case takes =>
    have hlow : lowestKey (freshKeys s.pulseLow.input.keys s.pulseLow.keyPrev) = some k :=
      lowestKey_eq_some ((getLsbD_freshKeys_iff _ _ k).mpr ⟨hdown, hup⟩)
        fun j hj hbit => hbelow j hj ((getLsbD_freshKeys_iff _ _ j).mp hbit)
    rw [State.pollKeys, hlow]
    refine ⟨_, rfl, ?value, fun r hr => ?kept, rfl, rfl, rfl⟩
    case value =>
      refine (congrArg BitVec.toNat (reg_setReg_self s.pulseLow s.waitReg _)).trans ?_
      rw [BitVec.toNat_ofNat]
      omega
    case kept => exact reg_setReg_ne s.pulseLow hr _

end Sys2Proof.Machine
end

section
/-! PROOFS. What an instruction can do (10_state.md R41, 60_exceptions.md R212): the conditions on which an instruction
raises a fault, the effect of every instruction, said once, and the statements that are read off it. -/

namespace Sys2Proof.Machine

/-! ## The conditions of the faults and the effect of an instruction -/

/-- The instruction raises the cause with the recorded value in this state (60_exceptions.md R214 to R218). -/
inductive FaultCondition (s : State) : Instr → Cause → Nat → Prop
  | call (nnn : Imm12) (h : s.sp.val = 16) : FaultCondition s (.call nnn) .stackOverflow 16
  | ret (ign : Nibble) (h : s.sp.val = 0) : FaultCondition s (.ret ign) .stackUnderflow 0
  | drw (x y : Reg) (n : Nibble) (hrows : 0 < visibleRows n (startRow (s.reg y)))
      (h : 4096 < s.base + visibleRows n (startRow (s.reg y))) :
      FaultCondition s (.drw x y n) .outOfBounds (max s.base 4096)
  | ldB (x : Reg) (h : 4095 < s.base + 2) : FaultCondition s (.ldB x) .outOfBounds (max s.base 4096)
  | storeRegs (x : Reg) (h : 4095 < s.base + x.val) : FaultCondition s (.storeRegs x) .outOfBounds (max s.base 4096)
  | loadRegs (x : Reg) (h : 4095 < s.base + x.val) : FaultCondition s (.loadRegs x) .outOfBounds (max s.base 4096)
  | skp (x : Reg) (h : (s.reg x).toNat > 15) : FaultCondition s (.skp x) .keyIndexOutOfRange (s.reg x).toNat
  | sknp (x : Reg) (h : (s.reg x).toNat > 15) : FaultCondition s (.sknp x) .keyIndexOutOfRange (s.reg x).toNat

/-- What an instruction can leave: general registers among its destinations and pc, or the one other piece of state that
is its own, or the latch on a fault condition. From a fetchable pc the new pc is at most 4350, the sum of the largest
nnn and the largest V0 (10_state.md R40). -/
inductive Effect (s : State) : Instr → State → Prop
  | regs {i : Instr} {t : State} (hframe : RegFrame (destRegs i) s t)
      (hpc : s.pc.toNat ≤ 4094 → t.pc.toNat ≤ 4350) : Effect s i t
  | call (nnn : Imm12) (h : s.sp.val < 16) : Effect s (.call nnn) { s with
      stack := s.stack.set s.sp.val (s.pc + 2) h, sp := ⟨s.sp.val + 1, by omega⟩, pc := zext16 nnn }
  | ret (ign : Nibble) (h : 0 < s.sp.val) : Effect s (.ret ign) { s with
      sp := ⟨s.sp.val - 1, by omega⟩, pc := s.stack[s.sp.val - 1] }
  | ldI (nnn : Imm12) (a : Word) : Effect s (.ldI nnn) { s.advancePc with I := a }
  | addI (x : Reg) (a : Word) : Effect s (.addI x) { s.advancePc with I := a }
  | ldF (x : Reg) (a : Word) : Effect s (.ldF x) { s.advancePc with I := a }
  | ldDTVx (x : Reg) : Effect s (.ldDTVx x) { s.advancePc with DT := s.reg x }
  | ldSTVx (x : Reg) : Effect s (.ldSTVx x) { s.advancePc with ST := s.reg x }
  | ldVxK (x : Reg) : Effect s (.ldVxK x) { s.advancePc with
      mode := .awaitingKey, waitReg := x, keyPrev := s.input.keys }
  | cls (ign : Nibble) : Effect s (.cls ign) { s.advancePc.pulseDisplay with fb := Display.blank }
  | drw (x y : Reg) (n : Nibble) : Effect s (.drw x y n) (s.drawn x y n)
  | ldB (x : Reg) (h : s.base + 2 ≤ 4095) : Effect s (.ldB x) { s.advancePc with
      mem := s.mem.writeBytes s.base (decimalDigits (s.reg x)) }
  | storeRegs (x : Reg) (h : s.base + x.val ≤ 4095) : Effect s (.storeRegs x) { s.advancePc with
      mem := s.mem.writeBytes s.base (s.firstRegs x) }
  | fault {i : Instr} {c : Cause} {a : Nat} (h : FaultCondition s i c a) : Effect s i (s.raise c a (encode i))

/-! ## The instructions that write registers and pc only -/

theorem RegFrame.eq {dst : List Reg} {s t : State} (h : RegFrame dst s t) : t = { s with V := t.V, pc := t.pc } :=
  let ⟨_, heq, _⟩ := h
  heq

theorem advance_toNat {pc : Word} (h : pc.toNat ≤ 4094) : (pc + 2).toNat = pc.toNat + 2 := by
  have hlt : pc.toNat + 2 < 2 ^ 16 := by omega
  exact (BitVec.toNat_add pc 2).trans (Nat.mod_eq_of_lt hlt)

theorem advance_toNat_le {pc : Word} (h : pc.toNat ≤ 4094) : (pc + 2).toNat ≤ 4350 := by
  rw [advance_toNat h]
  omega

theorem effect_of_advance {i : Instr} {s t : State} (h : exec i s = .next t.advancePc)
    (hframe : RegFrame (destRegs i) s t) (hpc : t.pc = s.pc) : ∃ t, exec i s = .next t ∧ Effect s i t :=
  ⟨_, h, .regs hframe.advancePc fun hle => advance_toNat_le (hpc ▸ hle)⟩

theorem effect_of_setReg {i : Instr} {s : State} {x : Reg} {v : Byte} (h : exec i s = .next (s.setReg x v).advancePc)
    (hd : x ∈ destRegs i) : ∃ t, exec i s = .next t ∧ Effect s i t :=
  effect_of_advance h ((RegFrame.refl _ s).setReg hd v) rfl

theorem effect_of_writeFlagged {i : Instr} {s : State} {x : Reg} {v : Byte} {f : Bool}
    (h : exec i s = .next (s.writeFlagged x v f).advancePc) (hd : destRegs i = [x, regVF]) :
    ∃ t, exec i s = .next t ∧ Effect s i t :=
  effect_of_advance h
    (((RegFrame.refl _ s).setReg (by simp [hd]) v).setReg (by simp [hd]) (flagByte f)) rfl

theorem effect_of_pc {i : Instr} {s : State} {a : Word} (h : exec i s = .next { s with pc := a })
    (hd : destRegs i = []) (ha : s.pc.toNat ≤ 4094 → a.toNat ≤ 4350) : ∃ t, exec i s = .next t ∧ Effect s i t :=
  ⟨_, h, .regs (hd ▸ regFrame_setPc s a) ha⟩

theorem effect_of_skipIf {i : Instr} {s : State} {c : Bool} (h : exec i s = .next (s.skipIf c))
    (hd : destRegs i = []) : ∃ t, exec i s = .next t ∧ Effect s i t := by
  rw [skipIf_eq] at h
  refine effect_of_pc h hd fun hle => ?_
  cases c with
  | false => exact advance_toNat_le hle
  | true =>
    have hlt : s.pc.toNat + 4 < 2 ^ 16 := by omega
    have hskip : (s.pc + 4).toNat = s.pc.toNat + 4 := (BitVec.toNat_add s.pc 4).trans (Nat.mod_eq_of_lt hlt)
    rw [if_pos rfl, hskip]
    omega

theorem zext16_toNat_le (nnn : Imm12) : (zext16 nnn).toNat ≤ 4350 := by
  rw [zext16_toNat]
  omega

theorem effect_of_skipIfKey {i : Instr} {s : State} {x : Reg} {wanted : Bool}
    (h : exec i s = .next (s.skipIfKey x wanted (encode i))) (hd : destRegs i = [])
    (hfault : (s.reg x).toNat > 15 → FaultCondition s i .keyIndexOutOfRange (s.reg x).toNat) :
    ∃ t, exec i s = .next t ∧ Effect s i t := by
  by_cases hx : (s.reg x).toNat > 15
  · rw [skipIfKey_of_gt hx] at h
    exact ⟨_, h, .fault (hfault hx)⟩
  · rw [skipIfKey_of_le (Nat.not_lt.mp hx)] at h
    exact effect_of_skipIf h hd

/-! ## Every instruction -/

/-- Every instruction answers a next state, which is one of its effects. -/
theorem exec_effect (i : Instr) (s : State) : ∃ t, exec i s = .next t ∧ Effect s i t := by
  cases i with
  | cls ign => exact ⟨_, rfl, .cls ign⟩
  | ret ign =>
    by_cases h : s.sp.val = 0
    · exact ⟨_, exec_ret_of_empty h ign, .fault (.ret ign h)⟩
    · exact ⟨_, exec_ret_of_pos (Nat.pos_of_ne_zero h) ign, .ret ign (Nat.pos_of_ne_zero h)⟩
  | sys nnn => exact effect_of_advance (t := s) rfl (RegFrame.refl _ s) rfl
  | jp nnn => exact effect_of_pc rfl rfl fun _ => zext16_toNat_le nnn
  | call nnn =>
    by_cases h : s.sp.val < 16
    · exact ⟨_, exec_call_of_lt h nnn, .call nnn h⟩
    · have hfull : s.sp.val = 16 := by omega
      exact ⟨_, exec_call_of_full hfull nnn, .fault (.call nnn hfull)⟩
  | seImm x kk => exact effect_of_skipIf rfl rfl
  | sneImm x kk => exact effect_of_skipIf rfl rfl
  | seReg x y ign => exact effect_of_skipIf rfl rfl
  | sneReg x y ign => exact effect_of_skipIf rfl rfl
  | ldImm x kk => exact effect_of_setReg rfl (List.mem_singleton_self x)
  | addImm x kk => exact effect_of_setReg rfl (List.mem_singleton_self x)
  | ldReg x y => exact effect_of_setReg rfl (List.mem_singleton_self x)
  | orReg x y => exact effect_of_setReg rfl (List.mem_singleton_self x)
  | andReg x y => exact effect_of_setReg rfl (List.mem_singleton_self x)
  | xorReg x y => exact effect_of_setReg rfl (List.mem_singleton_self x)
  | rnd x kk => exact effect_of_setReg rfl (List.mem_singleton_self x)
  | ldVxDT x => exact effect_of_setReg rfl (List.mem_singleton_self x)
  | addReg x y => exact effect_of_writeFlagged rfl rfl
  | subReg x y => exact effect_of_writeFlagged rfl rfl
  | shr x y => exact effect_of_writeFlagged rfl rfl
  | subn x y => exact effect_of_writeFlagged rfl rfl
  | shl x y => exact effect_of_writeFlagged rfl rfl
  | ldI nnn => exact ⟨_, rfl, .ldI nnn _⟩
  | jpV0 nnn =>
    refine effect_of_pc rfl rfl fun _ => ?_
    rw [indexedTarget_toNat]
    omega
  | drw x y n =>
    by_cases h : visibleRows n (startRow (s.reg y)) = 0 ∨ s.base + visibleRows n (startRow (s.reg y)) ≤ 4096
    · exact ⟨_, exec_drw_of_le h, .drw x y n⟩
    · rw [not_or, Nat.not_le] at h
      exact ⟨_, exec_drw_of_gt h.1 h.2, .fault (.drw x y n (Nat.pos_of_ne_zero h.1) h.2)⟩
  | skp x => exact effect_of_skipIfKey rfl rfl (.skp x)
  | sknp x => exact effect_of_skipIfKey rfl rfl (.sknp x)
  | ldVxK x => exact ⟨_, rfl, .ldVxK x⟩
  | ldDTVx x => exact ⟨_, rfl, .ldDTVx x⟩
  | ldSTVx x => exact ⟨_, rfl, .ldSTVx x⟩
  | addI x => exact ⟨_, rfl, .addI x _⟩
  | ldF x => exact ⟨_, rfl, .ldF x _⟩
  | ldB x =>
    by_cases h : s.base + 2 ≤ 4095
    · exact ⟨_, exec_ldB_of_le h x, .ldB x h⟩
    · exact ⟨_, exec_ldB_of_gt (Nat.not_le.mp h) x, .fault (.ldB x (Nat.not_le.mp h))⟩
  | storeRegs x =>
    by_cases h : s.base + x.val ≤ 4095
    · exact ⟨_, exec_storeRegs_of_le h, .storeRegs x h⟩
    · exact ⟨_, exec_storeRegs_of_gt (Nat.not_le.mp h), .fault (.storeRegs x (Nat.not_le.mp h))⟩
  | loadRegs x =>
    by_cases h : s.base + x.val ≤ 4095
    · refine ⟨_, exec_loadRegs_of_le h, .regs ⟨fun r hr => ?_, rfl, fun _ => rfl⟩ advance_toNat_le⟩
      have hnot : ¬ r ≤ x := fun hle =>
        hr (List.mem_filter.mpr ⟨List.mem_finRange r, decide_eq_true (Fin.le_def.mp hle)⟩)
      exact (getElem_loadFrom_readBytes s.mem s.base x r s.V).trans (if_neg hnot)
    · exact ⟨_, exec_loadRegs_of_gt (Nat.not_le.mp h), .fault (.loadRegs x (Nat.not_le.mp h))⟩
  | rsvd8 x y n => exact effect_of_advance (t := s) rfl (RegFrame.refl _ s) rfl
  | rsvdE x kk => exact effect_of_advance (t := s) rfl (RegFrame.refl _ s) rfl
  | rsvdF x kk => exact effect_of_advance (t := s) rfl (RegFrame.refl _ s) rfl

theorem effect_of_exec {i : Instr} {s t : State} (h : exec i s = .next t) : Effect s i t := by
  obtain ⟨u, hexec, heffect⟩ := exec_effect i s
  obtain rfl : u = t := Host.Outcome.next.inj (hexec.symm.trans h)
  exact heffect

/-! ## Faults -/

/-- An instruction leaves the latch alone, or raises a fault on a fault condition. -/
theorem Effect.fault_or_raise {s t : State} {i : Instr} (h : Effect s i t) :
    t.fault = s.fault ∨ ∃ c a, FaultCondition s i c a ∧ t = s.raise c a (encode i) := by
  cases h with
  | fault h => exact .inr ⟨_, _, h, rfl⟩
  | regs hframe => exact .inl (by rw [hframe.eq])
  | _ => exact .inl rfl

/-- A fault that an instruction raises: the condition, and the record that names the instruction. -/
theorem raised_of_exec {i : Instr} {s t : State} {r : FaultRecord} (hs : s.fault = none) (h : exec i s = .next t)
    (ht : t.fault = some r) :
    FaultCondition s i r.cause r.addr ∧ t = s.raise r.cause r.addr (encode i) ∧ r.fpc = s.pc ∧ r.finstr = encode i := by
  obtain hkeep | ⟨c, a, hcond, rfl⟩ := (effect_of_exec h).fault_or_raise
  · rw [hkeep, hs] at ht
    cases ht
  · obtain rfl := Option.some.inj ht
    exact ⟨hcond, rfl, rfl, rfl⟩

/-- Settles O38. -/
theorem faultsArePrecise : Obligations.FaultsArePrecise := by
  intro i s t r hs h ht
  obtain ⟨-, heq, hfpc, hfinstr⟩ := raised_of_exec hs h ht
  refine ⟨?_, hfpc, hfinstr⟩
  rw [← ht, heq]
  rfl

/-- Settles O39, by the fault conditions. -/
theorem onlyListedInstructionsFault : Obligations.OnlyListedInstructionsFault := by
  intro i s t r hs h ht
  obtain ⟨hcond, -⟩ := raised_of_exec hs h ht
  obtain ⟨cause, addr, fpc, finstr⟩ := r
  cases hcond with
  | call nnn hsp => exact .inl ⟨nnn, rfl, rfl, hsp, rfl⟩
  | ret ign hsp => exact .inr (.inl ⟨ign, rfl, rfl, hsp, rfl⟩)
  | drw x y n hrows hgt => exact .inr (.inr (.inl ⟨x, y, n, rfl, rfl, hrows, Nat.le_sub_one_of_lt hgt, rfl⟩))
  | ldB x hgt => exact .inr (.inr (.inr (.inl ⟨x, rfl, rfl, hgt, rfl⟩)))
  | storeRegs x hgt => exact .inr (.inr (.inr (.inr (.inl ⟨x, .inl rfl, rfl, hgt, rfl⟩))))
  | loadRegs x hgt => exact .inr (.inr (.inr (.inr (.inl ⟨x, .inr rfl, rfl, hgt, rfl⟩))))
  | skp x hgt => exact .inr (.inr (.inr (.inr (.inr ⟨x, .inl rfl, rfl, hgt, rfl⟩))))
  | sknp x hgt => exact .inr (.inr (.inr (.inr (.inr ⟨x, .inr rfl, rfl, hgt, rfl⟩))))

theorem FaultCondition.ne_illegalOpcode {s : State} {i : Instr} {c : Cause} {a : Nat} (h : FaultCondition s i c a) :
    c ≠ .illegalOpcode := by
  cases h <;> decide

theorem exec_of_reservedRow {i : Instr} (h : reservedRow i = true) (s : State) :
    exec i s = .next (s.unrecognised Config.strictOpcodes (encode i)) := by
  cases i with
  | rsvd8 x y n => rfl
  | rsvdE x kk => rfl
  | rsvdF x kk => rfl
  | _ => cases h

/-- Settles O34: the words are compared by the families of the decoder, and no fault condition names IllegalOpcode. -/
theorem strictModeRaisesIllegalOpcode : Obligations.StrictModeRaisesIllegalOpcode := by
  intro s w
  refine ⟨unrecognisedWord_eq_reservedRow w, fun _ _ _ => rfl, fun _ _ => rfl, fun _ _ => rfl, fun hw => ?unrecognised,
    fun t r _ hs h ht => ?recognised, rfl, rfl, rfl⟩
  case unrecognised =>
    rw [exec_of_reservedRow ((unrecognisedWord_eq_reservedRow w).symm.trans hw), encode_decodeWord]
  case recognised =>
    obtain ⟨hcond, -⟩ := raised_of_exec hs h ht
    exact hcond.ne_illegalOpcode

/-! ## Who writes what -/

/-- Settles O45, effect by effect. -/
theorem memoryAndDisplayWriters : Obligations.MemoryAndDisplayWriters := by
  intro i s t h
  refine ⟨fun hldB hstore => ?memory, fun hcls hdrw => ?display⟩
  case memory =>
    cases effect_of_exec h with
    | regs hframe => rw [hframe.eq]
    | ldB x => exact absurd rfl (hldB x)
    | storeRegs x => exact absurd rfl (hstore x)
    | _ => rfl
  case display =>
    cases effect_of_exec h with
    | regs hframe => rw [hframe.eq]; exact ⟨rfl, rfl⟩
    | cls ign => exact absurd rfl (hcls ign)
    | drw x y n => exact absurd rfl (hdrw x y n)
    | _ => exact ⟨rfl, rfl⟩

/-- Settles O46, effect by effect. -/
theorem otherStateWriters : Obligations.OtherStateWriters := by
  intro i s t h
  refine ⟨fun hcall hret => ?stack, fun hldI haddI hldF => ?index, fun hDT => ?DT, fun hST => ?ST, fun hwait => ?engine,
    ?lines⟩
  case stack =>
    cases effect_of_exec h with
    | regs hframe => rw [hframe.eq]; exact ⟨rfl, rfl⟩
    | call nnn => exact absurd rfl (hcall nnn)
    | ret ign => exact absurd rfl (hret ign)
    | _ => exact ⟨rfl, rfl⟩
  case index =>
    cases effect_of_exec h with
    | regs hframe => rw [hframe.eq]
    | ldI nnn => exact absurd rfl (hldI nnn)
    | addI x => exact absurd rfl (haddI x)
    | ldF x => exact absurd rfl (hldF x)
    | _ => rfl
  case DT =>
    cases effect_of_exec h with
    | regs hframe => rw [hframe.eq]
    | ldDTVx x => exact absurd rfl (hDT x)
    | _ => rfl
  case ST =>
    cases effect_of_exec h with
    | regs hframe => rw [hframe.eq]
    | ldSTVx x => exact absurd rfl (hST x)
    | _ => rfl
  case engine =>
    cases effect_of_exec h with
    | regs hframe => rw [hframe.eq]; exact ⟨rfl, rfl, rfl⟩
    | ldVxK x => exact absurd rfl (hwait x)
    | _ => exact ⟨rfl, rfl, rfl⟩
  case lines =>
    cases effect_of_exec h with
    | regs hframe => rw [hframe.eq]; exact ⟨rfl, rfl, rfl⟩
    | _ => exact ⟨rfl, rfl, rfl⟩

/-- Settles O47, effect by effect: V changes under the frame of the destinations, and Dxyn writes VF alone. -/
theorem onlyDestinationRegistersChange : Obligations.OnlyDestinationRegistersChange := by
  intro i s t r h hr
  cases effect_of_exec h with
  | regs hframe =>
    obtain ⟨hreg, -, -⟩ := hframe
    exact hreg r hr
  | drw x y n => exact reg_setReg_ne _ (List.ne_of_not_mem_cons hr) _
  | _ => rfl

end Sys2Proof.Machine
end

section
/-! PROOFS. The input lines (60_exceptions.md R227): an instruction that does not read a line does the same whatever the
line holds. -/

namespace Sys2Proof.Machine

/-- The state with other input lines. -/
def State.withInput (inp : Input) (s : State) : State := { s with input := inp }

/-- The outcome with other input lines in its next state. -/
def withInputNext (inp : Input) : Result → Result
  | .next t => .next (t.withInput inp)
  | .fault r => .fault r
  | .refused r => .refused r

theorem skipIf_withInput (c : Bool) (inp : Input) (s : State) :
    (s.withInput inp).skipIf c = (s.skipIf c).withInput inp := by
  cases c <;> rfl

theorem storeAtI_withInput (inp : Input) (s : State) (bs : List Byte) (w : Word) :
    (s.withInput inp).storeAtI bs w = (s.storeAtI bs w).withInput inp := by
  simp only [State.storeAtI, State.withInput, State.base]
  split <;> rfl

theorem skipIfKey_withInput {inp : Input} {s : State} (h : inp.keys = s.input.keys) (x : Reg) (wanted : Bool)
    (w : Word) :
    (s.withInput inp).skipIfKey x wanted w = (s.skipIfKey x wanted w).withInput inp := by
  have hkey : (s.withInput inp).keyDown (s.reg x).toNat = s.keyDown (s.reg x).toNat := congrArg (BitVec.getLsbD · _) h
  by_cases hx : (s.reg x).toNat ≤ 15
  · rw [skipIfKey_of_le hx, skipIfKey_of_le (s := s.withInput inp) hx, ← skipIf_withInput, ← hkey]
    rfl
  · rw [skipIfKey_of_gt (Nat.not_le.mp hx), skipIfKey_of_gt (s := s.withInput inp) (Nat.not_le.mp hx)]
    rfl

/-- The key vector matters to Ex9E, ExA1 and Fx0A only, the random byte to Cxkk only. -/
theorem exec_withInput (i : Instr) (s : State) (inp : Input)
    (hkeys : (∃ x, i = .skp x ∨ i = .sknp x ∨ i = .ldVxK x) → inp.keys = s.input.keys)
    (hrnd : (∃ x kk, i = .rnd x kk) → inp.rnd = s.input.rnd) :
    exec i (s.withInput inp) = withInputNext inp (exec i s) := by
  cases i with
  | ret ign =>
    by_cases h : 0 < s.sp.val
    · rw [exec_ret_of_pos h, exec_ret_of_pos (s := s.withInput inp) h]
      rfl
    · have hempty : s.sp.val = 0 := by omega
      rw [exec_ret_of_empty hempty, exec_ret_of_empty (s := s.withInput inp) hempty]
      rfl
  | call nnn =>
    by_cases h : s.sp.val < 16
    · rw [exec_call_of_lt h, exec_call_of_lt (s := s.withInput inp) h]
      rfl
    · have hfull : s.sp.val = 16 := by omega
      rw [exec_call_of_full hfull, exec_call_of_full (s := s.withInput inp) hfull]
      rfl
  | seImm x kk => exact congrArg Host.Outcome.next (skipIf_withInput _ inp s)
  | sneImm x kk => exact congrArg Host.Outcome.next (skipIf_withInput _ inp s)
  | seReg x y ign => exact congrArg Host.Outcome.next (skipIf_withInput _ inp s)
  | sneReg x y ign => exact congrArg Host.Outcome.next (skipIf_withInput _ inp s)
  | drw x y n =>
    by_cases h : visibleRows n (startRow (s.reg y)) = 0 ∨ s.base + visibleRows n (startRow (s.reg y)) ≤ 4096
    · rw [exec_drw_of_le h, exec_drw_of_le (s := s.withInput inp) h]
      rfl
    · rw [not_or, Nat.not_le] at h
      obtain ⟨hne, hgt⟩ := h
      rw [exec_drw_of_gt hne hgt, exec_drw_of_gt (s := s.withInput inp) hne hgt]
      rfl
  | skp x => exact congrArg Host.Outcome.next (skipIfKey_withInput (hkeys ⟨x, .inl rfl⟩) x true _)
  | sknp x => exact congrArg Host.Outcome.next (skipIfKey_withInput (hkeys ⟨x, .inr (.inl rfl)⟩) x false _)
  | ldVxK x =>
    have hsame : inp.keys = s.input.keys := hkeys ⟨x, .inr (.inr rfl)⟩
    simp only [exec, execLdVxK, withInputNext, State.withInput, hsame]
    rfl
  | rnd x kk =>
    have hsame : inp.rnd = s.input.rnd := hrnd ⟨x, kk, rfl⟩
    simp only [exec, execRnd, withInputNext, State.withInput, hsame]
    rfl
  | ldB x => exact congrArg Host.Outcome.next (storeAtI_withInput inp s _ _)
  | storeRegs x => exact congrArg Host.Outcome.next (storeAtI_withInput inp s _ _)
  | loadRegs x =>
    by_cases h : s.base + x.val ≤ 4095
    · rw [exec_loadRegs_of_le h, exec_loadRegs_of_le (s := s.withInput inp) h]
      rfl
    · rw [exec_loadRegs_of_gt (Nat.not_le.mp h), exec_loadRegs_of_gt (s := s.withInput inp) (Nat.not_le.mp h)]
      rfl
  | _ => rfl

/-- Settles O48. -/
theorem inputsReachOnlyTheirInstructions : Obligations.InputsReachOnlyTheirInstructions := by
  intro i s t k b h
  refine ⟨fun hskp hsknp hwait => ?keys, fun hrnd => ?rnd⟩
  case keys =>
    have hno : ¬∃ x, i = .skp x ∨ i = .sknp x ∨ i = .ldVxK x := by
      rintro ⟨x, h | h | h⟩
      exacts [hskp x h, hsknp x h, hwait x h]
    have hexec := exec_withInput i s { s.input with keys := k } (fun hx => absurd hx hno) fun _ => rfl
    rw [h] at hexec
    exact hexec
  case rnd =>
    have hno : ¬∃ x kk, i = .rnd x kk := fun ⟨x, kk, hx⟩ => hrnd x kk hx
    have hexec := exec_withInput i s { s.input with rnd := b } (fun _ => rfl) fun hx => absurd hx hno
    rw [h] at hexec
    exact hexec

end Sys2Proof.Machine
end

section
/-! PROOFS. Reset (70_reset_and_hazards.md R250 to R254): the memory with the font in it, the reset sequence case by
case, and the statements on them. -/

namespace Sys2Proof.Machine

/-! ## The font in memory -/

/-- Memory after step 3 of the reset sequence: the font at FONT_BASE and 0 elsewhere (70_reset_and_hazards.md R251).
Irreducible, so that no comparison of states evaluates it. -/
@[irreducible] def Memory.withFont : Memory := Memory.zeroed.writeBytes fontBase font

theorem withFont_eq : Memory.zeroed.writeBytes fontBase font = Memory.withFont := by
  unfold Memory.withFont
  with_reducible rfl

theorem length_font : font.length = 80 := rfl

theorem wf_withFont : Memory.withFont.wf = true := by
  rw [← withFont_eq]
  exact wf_writeBytes wf_zeroed (by rw [length_font]; decide)

theorem read_withFont (a : Nat) :
    Memory.withFont.read a = if fontBase ≤ a ∧ a < fontBase + 80 then font.getD (a - fontBase) 0 else 0 := by
  rw [← withFont_eq, read_writeBytes wf_zeroed (by rw [length_font]; decide), read_zeroed]
  by_cases hin : fontBase ≤ a ∧ a < fontBase + 80
  · rw [if_pos hin, if_pos hin.1, List.getD_eq_getElem?_getD]
  · rw [if_neg hin]
    split_ifs with hle
    · rw [List.getElem?_eq_none (by rw [length_font]; omega)]
      rfl
    · rfl

/-! ## The reset sequence, case by case -/

theorem cleared_mem (s : State) : s.cleared.mem = Memory.zeroed := rfl

theorem resetSequence_of_base_gt {base : Nat} (h : base + 80 > 4096) (glyphs rom : List Byte) (s : State) :
    s.resetSequence base glyphs rom = s.cleared.raise .outOfBounds 4096 0 :=
  if_pos h

theorem resetWith_of_gt {rom : List Byte} (h : rom.length > 3584) (s : State) :
    s.resetWith rom = { s.cleared with mem := Memory.withFont }.raise .romTooLarge rom.length 0 := by
  have hbase : ¬ fontBase + 80 > 4096 := by decide
  rw [State.resetWith, State.resetSequence, if_neg hbase, cleared_mem, withFont_eq, if_pos h]

theorem resetWith_of_le {rom : List Byte} (h : rom.length ≤ 3584) (s : State) :
    s.resetWith rom = { s.cleared with mem := Memory.withFont.writeBytes 0x200 rom } := by
  have hbase : ¬ fontBase + 80 > 4096 := by decide
  rw [State.resetWith, State.resetSequence, if_neg hbase, cleared_mem, withFont_eq, if_neg (Nat.not_lt.mpr h)]

/-! ## The cleared state -/

theorem reg_cleared (s : State) (r : Reg) : s.cleared.reg r = 0 := Vector.getElem_replicate r.isLt

theorem stack_cleared (s : State) (k : Fin 16) : s.cleared.stack[k.val] = 0 := Vector.getElem_replicate k.isLt

theorem pixel_cleared (s : State) (r c : Nat) : s.cleared.fb.pixel r c = false :=
  (congrArg (BitVec.getLsbD · c) (row_blank r)).trans BitVec.getLsbD_zero

/-! ## The statements -/

/-- Settles O49: the ROM is written over the font's memory, and its bytes end inside the address space. -/
theorem resetLoadsFontAndRom : Obligations.ResetLoadsFontAndRom := by
  intro s rom hlen
  simp only [resetWith_of_le hlen]
  refine ⟨reg_cleared s, rfl, rfl, rfl, stack_cleared s, rfl, rfl, pixel_cleared s, rfl, rfl, rfl, rfl, rfl,
    fun a _ => ?memory⟩
  rw [← read_withFont, read_writeBytes wf_withFont (by omega)]
  by_cases hin : 0x200 ≤ a ∧ a < 0x200 + rom.length
  · have hlt : a - 0x200 < rom.length := by omega
    rw [if_pos hin, if_pos hin.1, List.getD_eq_getElem?_getD, List.getElem?_eq_getElem hlt, Option.getD_some,
      Option.getD_some]
  · rw [if_neg hin]
    split_ifs with hle
    · rw [List.getElem?_eq_none (by omega), Option.getD_none]
    · rfl

/-- Settles O50. -/
theorem resetRefusesLargeRom : Obligations.ResetRefusesLargeRom := by
  intro s rom hlen
  simp only [resetWith_of_gt hlen]
  exact ⟨rfl, reg_cleared s, rfl, rfl, rfl, stack_cleared s, rfl, rfl, pixel_cleared s, rfl, rfl, rfl, rfl,
    fun a _ => read_withFont a⟩

/-- Settles O51. -/
theorem resetRefusesFontBaseAboveMemory : Obligations.ResetRefusesFontBaseAboveMemory := by
  intro s base glyphs rom hbase
  simp only [resetSequence_of_base_gt hbase]
  exact ⟨rfl, rfl, read_zeroed⟩

/-- The font's memory is the reset image, so nothing is listed. -/
theorem withFont_eq_nil : Memory.withFont = [] := by
  refine memory_ext wf_withFont wf_reset fun a => (read_withFont a).trans ?_
  show _ = unlistedByte a
  unfold unlistedByte
  by_cases hin : fontBase ≤ a ∧ a < fontBase + 80
  · rw [if_pos hin, if_neg (Nat.not_lt.mpr hin.1)]
  · rw [if_neg hin]
    split_ifs with hlt
    · rfl
    · exact (List.getD_eq_default _ _ (by rw [length_font]; omega)).symm

/-- Settles O52. -/
theorem resetStateIsResetOfEmptyRom : Obligations.ResetStateIsResetOfEmptyRom := by
  refine (resetWith_of_le (Nat.zero_le _) State.reset).trans ?_
  rw [withFont_eq_nil]
  rfl

/-- Settles O53: pc is 0x200, where the ROM's bytes stand. -/
theorem firstFetchReadsRomStart : Obligations.FirstFetchReadsRomStart := by
  intro s hi lo rest hlen
  have hrom : (hi :: lo :: rest).length ≤ 3584 := by simp only [List.length_cons]; omega
  have hle : 0x200 + (hi :: lo :: rest).length ≤ 4096 := by omega
  have hhi : (Memory.withFont.writeBytes 0x200 (hi :: lo :: rest)).read 0x200 = hi :=
    read_writeBytes_at (k := 0) wf_withFont hle rfl
  have hlo : (Memory.withFont.writeBytes 0x200 (hi :: lo :: rest)).read (0x200 + 1) = lo :=
    read_writeBytes_at (k := 1) wf_withFont hle rfl
  have hfetch : (s.resetWith (hi :: lo :: rest)).fetchWord = .ok
      ((Memory.withFont.writeBytes 0x200 (hi :: lo :: rest)).read 0x200 ++
        (Memory.withFont.writeBytes 0x200 (hi :: lo :: rest)).read (0x200 + 1)) := by
    rw [resetWith_of_le hrom]
    rfl
  rw [hfetch, hhi, hlo]

end Sys2Proof.Machine
end

section
/-! PROOFS. The invariant (10_state.md R40) and totality: what a step event can do, what keeps the invariant, and the
statements on reset, on every step, on every event and on runs. -/

namespace Sys2Proof.Machine

/-! ## A step event -/

/-- A step event, once: nothing but the pulse, a poll, a failed fetch, or an instruction from a fetchable pc with no
fault latched. -/
theorem stepEvent_cases (s : State) : ∃ t, s.stepEvent = .next t ∧
    (t = s.pulseLow ∨ t = s.pulseLow.pollKeys ∨ (∃ a, t = s.pulseLow.raise .outOfBounds a 0) ∨
      (s.fault = none ∧ s.pc.toNat ≤ 4094 ∧ ∃ i, Effect s.pulseLow i t)) := by
  cases hf : s.fault with
  | some r => exact ⟨_, stepEvent_of_fault hf, .inl rfl⟩
  | none =>
    cases hm : s.mode with
    | awaitingKey => exact ⟨_, stepEvent_of_awaitingKey hf hm, .inr (.inl rfl)⟩
    | running =>
      rw [stepEvent_of_running hf hm]
      by_cases hpc : s.pc.toNat ≤ 4094
      · obtain ⟨t, hexec, heffect⟩ :=
          exec_effect (decodeWord (s.mem.read s.pc.toNat ++ s.mem.read (s.pc.toNat + 1))) s.pulseLow
        exact ⟨t, (runInstruction_of_le (s := s.pulseLow) hpc).trans hexec, .inr (.inr (.inr ⟨rfl, hpc, _, heffect⟩))⟩
      · exact ⟨_, runInstruction_of_gt (s := s.pulseLow) (Nat.not_le.mp hpc), .inr (.inr (.inl ⟨_, rfl⟩))⟩

/-- Settles O40, by induction on the number of steps: every step event answers a next state. -/
theorem runsNeverStop : Obligations.RunsNeverStop := by
  intro k
  induction k with
  | zero => exact fun s => ⟨s, rfl⟩
  | succ k ih =>
    intro s
    obtain ⟨u, hevent, -⟩ := stepEvent_cases (State.runTicks s.input.ticks s)
    have hstep : step s = .next u.nextInput := by rw [step_eq, hevent]; rfl
    rw [runSteps_succ k hstep]
    exact ih u.nextInput

/-! ## What keeps the invariant -/

/-- The invariant looks at memory, pc, the stack and the latch only. -/
theorem State.Inv.congr {s t : State} (h : s.Inv) (hmem : t.mem = s.mem) (hpc : t.pc = s.pc) (hsp : t.sp = s.sp)
    (hstack : t.stack = s.stack) (hfault : t.fault = s.fault) : t.Inv where
  memory := by rw [hmem]; exact h.memory
  pcRange := by rw [hpc]; exact h.pcRange
  returns := by rw [hsp, hstack]; exact h.returns
  faultPc := by rw [hfault, hpc]; exact h.faultPc

/-- A raised fault names the pc that stays. -/
theorem State.Inv.raise {s : State} (h : s.Inv) (c : Cause) (a : Nat) (w : Word) : (s.raise c a w).Inv where
  memory := h.memory
  pcRange := h.pcRange
  returns := h.returns
  faultPc := by
    rintro r hr
    obtain rfl := Option.some.inj hr
    rfl

/-- With no fault latched, a state with canonical memory, a pc in range and the old stack meets the invariant. -/
theorem State.Inv.of_no_fault {s t : State} (h : s.Inv) (hmem : t.mem.wf = true) (hpc : t.pc.toNat ≤ 4350)
    (hsp : t.sp = s.sp) (hstack : t.stack = s.stack) (hfault : t.fault = none) : t.Inv where
  memory := hmem
  pcRange := hpc
  returns := by rw [hsp, hstack]; exact h.returns
  faultPc := by
    intro r hr
    rw [hfault] at hr
    cases hr

/-- A push of the address after a fetchable pc puts an address in 2 to 4096 on top. -/
theorem State.Inv.call {s : State} (h : s.Inv) (hf : s.fault = none) (hpc : s.pc.toNat ≤ 4094) (hsp : s.sp.val < 16)
    (nnn : Imm12) : State.Inv { s with
      stack := s.stack.set s.sp.val (s.pc + 2) hsp, sp := ⟨s.sp.val + 1, by omega⟩, pc := zext16 nnn } where
  memory := h.memory
  pcRange := zext16_toNat_le nnn
  returns := by
    intro k hk
    simp only [Vector.getElem_set]
    split_ifs with htop
    · rw [advance_toNat hpc]
      omega
    · exact h.returns k (Nat.lt_of_le_of_ne (Nat.le_of_lt_succ hk) (Ne.symm htop))
  faultPc := by
    intro r hr
    rw [hf] at hr
    cases hr

/-- A pop takes an address in 2 to 4096 into pc. -/
theorem State.Inv.ret {s : State} (h : s.Inv) (hf : s.fault = none) (hsp : 0 < s.sp.val) :
    State.Inv { s with sp := ⟨s.sp.val - 1, by omega⟩, pc := s.stack[s.sp.val - 1] } where
  memory := h.memory
  pcRange := by
    obtain ⟨-, hle⟩ := h.returns ⟨s.sp.val - 1, by omega⟩ (Nat.sub_one_lt_of_lt hsp)
    exact Nat.le_trans hle (by decide)
  returns := fun k hk => h.returns k (Nat.lt_of_lt_of_le hk (Nat.sub_le _ _))
  faultPc := by
    intro r hr
    rw [hf] at hr
    cases hr

/-- Every effect of an instruction at a fetchable pc keeps the invariant. -/
theorem State.Inv.effect {s t : State} {i : Instr} (h : s.Inv) (hf : s.fault = none) (hpc : s.pc.toNat ≤ 4094)
    (heffect : Effect s i t) : t.Inv := by
  have hadvance : (s.pc + 2).toNat ≤ 4350 := advance_toNat_le hpc
  cases heffect with
  | regs hframe ht =>
    have heq := hframe.eq
    exact h.of_no_fault (by rw [heq]; exact h.memory) (ht hpc) (by rw [heq]) (by rw [heq]) (by rw [heq]; exact hf)
  | call nnn hsp => exact h.call hf hpc hsp nnn
  | ret ign hsp => exact h.ret hf hsp
  | ldB x hle =>
    exact h.of_no_fault (wf_writeBytes h.memory (by rw [length_decimalDigits]; omega)) hadvance rfl rfl hf
  | storeRegs x hle =>
    exact h.of_no_fault (wf_writeBytes h.memory (by rw [length_firstRegs]; omega)) hadvance rfl rfl hf
  | fault => exact h.raise _ _ _
  | _ => exact h.of_no_fault h.memory hadvance rfl rfl hf

theorem State.Inv.pulseLow {s : State} (h : s.Inv) : s.pulseLow.Inv := h.congr rfl rfl rfl rfl rfl

theorem State.Inv.stepEvent {s t : State} (h : s.Inv) (hevent : s.stepEvent = .next t) : t.Inv := by
  obtain ⟨u, hu, hcases⟩ := stepEvent_cases s
  obtain rfl : u = t := Host.Outcome.next.inj (hu.symm.trans hevent)
  obtain rfl | rfl | ⟨a, rfl⟩ | ⟨hf, hpc, i, heffect⟩ := hcases
  · exact h.pulseLow
  · exact h.pulseLow.congr (pollKeys_mem _) (pollKeys_pc _) (pollKeys_sp _) (pollKeys_stack _) (pollKeys_fault _)
  · exact h.pulseLow.raise _ _ _
  · exact h.pulseLow.effect hf hpc heffect

/-- Settles O43: the ticks before the step event and the lines after it touch nothing that the invariant looks at. -/
theorem stepKeepsTheInvariant : Obligations.StepKeepsTheInvariant := by
  intro s t h hstep
  obtain ⟨u, hevent, rfl⟩ := nextLines_next ((step_eq s).symm.trans hstep)
  have hticks : (State.runTicks s.input.ticks s).Inv := h.congr rfl rfl rfl rfl rfl
  exact (hticks.stepEvent hevent).congr (nextInput_mem u) (nextInput_pc u) (nextInput_sp u) (nextInput_stack u)
    (nextInput_fault u)

/-! ## Reset and the other events -/

/-- Settles O42. -/
theorem resetMeetsTheInvariant : Obligations.ResetMeetsTheInvariant where
  memory := wf_reset
  pcRange := by decide
  returns := fun _ hk => absurd hk (Nat.not_lt_zero _)
  faultPc := by
    intro r hr
    cases hr

/-- Reset with any ROM meets the invariant: the ROM is stored when it ends inside the address space, and refused with a
record of 0x200 when it does not. -/
theorem inv_resetWith (rom : List Byte) (s : State) : (s.resetWith rom).Inv := by
  have hpc : s.cleared.pc.toNat ≤ 4350 := (by decide : (0x200 : Word).toNat ≤ 4350)
  have hfont : ({ s.cleared with mem := Memory.withFont } : State).Inv :=
    resetMeetsTheInvariant.of_no_fault wf_withFont hpc rfl rfl rfl
  by_cases hlen : rom.length ≤ 3584
  · rw [resetWith_of_le hlen]
    exact hfont.of_no_fault (wf_writeBytes wf_withFont (by omega)) hpc rfl rfl rfl
  · rw [resetWith_of_gt (Nat.not_le.mp hlen)]
    exact hfont.raise _ _ _

/-- Settles O44, event by event. -/
theorem eventsKeepTheInvariant : Obligations.EventsKeepTheInvariant := by
  intro s t e h hevent
  cases e with
  | reset rom =>
    obtain rfl := Host.Outcome.next.inj hevent
    exact inv_resetWith rom s
  | tick =>
    obtain rfl := Host.Outcome.next.inj hevent
    exact h.congr rfl rfl rfl rfl rfl
  | step keys rnd =>
    have hlines : ({ s with input := { s.input with keys := keys, rnd := rnd } } : State).Inv :=
      h.congr rfl rfl rfl rfl rfl
    exact hlines.stepEvent hevent

end Sys2Proof.Machine
end
